-- ==== Sys2Proof/Word.lean ====
section
/-!
DEFINITION. The byte, the register number, and the truncation to 8 bits that every ALU rule ends with.
-/

namespace Sys2Proof

/-- A "byte" or "u8": an integer 0..255 (spec/00_scope.md section 5). -/
abbrev Byte := BitVec 8

/-- `trunc8(v)`, "`v mod 256`" of a natural number (spec/00_scope.md section 5). -/
def trunc8 (n : Nat) : Byte := BitVec.ofNat 8 n

/-- The registers `R0` to `R7` (spec/10_state.md R11). `r5` is also `IM`, `r6` is `IS`, `r7` is `SP` (R12). -/
inductive Reg where
  | r0 | r1 | r2 | r3 | r4 | r5 | r6 | r7
  deriving DecidableEq, Repr

/-- The register's index, the value of the operand byte that names it (spec/30_encoding.md R62). -/
def Reg.index : Reg → Nat
  | .r0 => 0
  | .r1 => 1
  | .r2 => 2
  | .r3 => 3
  | .r4 => 4
  | .r5 => 5
  | .r6 => 6
  | .r7 => 7

end Sys2Proof
end

