-- ==== Sys2Proof/Config.lean ====
section
/-!
DEFINITION. What an implementation fixes (the parameters of spec/00_scope.md R5) and what the environment leaves free (the draws of
spec/10_state.md R34).
-/

namespace Sys2Proof.Config

/-- `OPMAP`: "the assignment of 4-bit `op_code` values to mnemonics" (spec/00_scope.md R5, decision D1), one value per mnemonic. Two mnemonics of
one namespace must not share a value: `Sys2Proof.OpMap.valid` (log 1). -/
structure OpMap where
  -- the ALU namespace
  (add sub mul div mod inc dec : Fin 16)
  (cmp and not or xor shl shr : Fin 16)
  -- the control-flow namespace
  (call ret int iret jmp jeq jne : Fin 16)
  (jgt jlt jle jge : Fin 16)
  -- the core namespace
  (nop hlt ldi ld st push pop : Fin 16)
  (prn pra : Fin 16)
  deriving DecidableEq, Repr

/-- The flag bit positions in the saved flags word: "L, G, E to bit numbers" (R5, decision D6), bits of a byte (log 7). -/
structure FlagBits where
  l : Fin 8
  g : Fin 8
  e : Fin 8
  deriving DecidableEq, Repr

/-- No two flags share a bit. -/
abbrev FlagBits.distinct (bits : FlagBits) : Prop := bits.l ≠ bits.g ∧ bits.l ≠ bits.e ∧ bits.g ≠ bits.e

/-- "a positive count" (R5), a bound on loop iterations. -/
abbrev MaxCycles := { n : Nat // 0 < n }

/-- The parameters the source leaves open (spec/00_scope.md R5), fixed for one machine: no step writes them, and a claim about every state
quantifies over them. Their defaults are `Sys2Proof.Machine.defaultParams` (log 1, log 4, log 7, log 25). -/
structure Params where
  /-- `VECTOR_BASE`: "address with `VECTOR_BASE + 7 <= 255`", so below 249. -/
  vectorBase : Fin 249
  /-- `KEY_ADDR`: the "last key" memory address. -/
  keyAddr : Byte
  /-- `CANCEL_KEY`: the cancel sentinel character code. -/
  cancelKey : Byte
  /-- `SUB_LEGACY_PRODUCT`: whether `SUB` computes the legacy product. -/
  subLegacyProduct : Bool
  /-- `MAX_CYCLES`: the embedding code's optional bound on loop iterations; read by `run()`, by no step. -/
  maxCycles : Option MaxCycles
  /-- `OPMAP`: which 4-bit `op_code` value each mnemonic has. -/
  opMap : OpMap
  /-- The flag bit positions in the saved flags word. -/
  flagBits : FlagBits
  deriving DecidableEq, Repr

/-- What the environment supplies at one poll (spec/10_state.md R34). -/
structure Draw where
  /-- "true when the timer source fires at this poll" -/
  tick : Bool
  /-- `none`, or the character the keystroke source delivers at this poll -/
  key : Option Byte
  deriving DecidableEq, Repr

/-- The draw of a poll at which nothing happens. -/
def Draw.quiet : Draw := { tick := false, key := none }

/-- FREE VALUE (log 3): whether the timer fires at the `n`-th poll. No body: "a free boolean draw at every poll" (spec/60_exceptions.md R183). -/
opaque tick : Nat → Bool

/-- FREE VALUE (log 3): the character read at the `n`-th poll. No body: "free draws at every poll, constrained by nothing" (spec/10_state.md R34). -/
opaque key : Nat → Option Byte

end Sys2Proof.Config
end

