-- ==== Sys2Proof/Machine/Params.lean ====
section
/-!
DEFINITION. The default values of the open parameters (spec/00_scope.md R5; log 1, log 4, log 7, log 25).
-/

namespace Sys2Proof.Machine

/-- The "op_code" columns of the tables of spec/30_encoding.md R64 (decision D1; log 1). -/
def defaultOpMap : Config.OpMap where
  add := 0
  sub := 1
  mul := 2
  div := 3
  mod := 4
  inc := 5
  dec := 6
  cmp := 7
  and := 8
  not := 9
  or := 10
  xor := 11
  shl := 12
  shr := 13
  call := 0
  ret := 1
  int := 2
  iret := 3
  jmp := 4
  jeq := 5
  jne := 6
  jgt := 7
  jlt := 8
  jle := 9
  jge := 10
  nop := 0
  hlt := 1
  ldi := 2
  ld := 3
  st := 4
  push := 5
  pop := 6
  prn := 7
  pra := 8

/-- "L = bit 2, G = bit 1, E = bit 0" (decision D6; log 7). -/
def defaultFlagBits : Config.FlagBits where
  l := 2
  g := 1
  e := 0

/-- The "default" column of spec/00_scope.md R5: decisions D7, D8, D9, D14, D23, D1, D6. -/
def defaultParams : Config.Params where
  vectorBase := 0xF8
  keyAddr := 0xF4
  cancelKey := 0x1B
  subLegacyProduct := false
  maxCycles := none
  opMap := defaultOpMap
  flagBits := defaultFlagBits

end Sys2Proof.Machine
end

