-- ==== Sys2Proof/Machine/State.lean ====
section
/-!
DEFINITION. The architectural state of spec/10_state.md R10, the reasons a step can stop, and the state after reset (R30).
-/

namespace Sys2Proof.Machine

/-- One memory cell, a tagged value (spec/10_state.md R23). The tag is architectural. "A model may use any integer type for Raw that holds
0..256": here the natural numbers (log 19). -/
inductive Cell where
  | byte (b : Byte)
  | raw (n : Nat)
  deriving DecidableEq, Repr

/-- Memory: the cells that differ from what an unlisted address reads as, by strictly rising address (log 20; `Memory.wf` in Machine/Ops.lean). -/
abbrev Memory := List (Nat × Cell)

/-- The register file, `x[0..7]` (R11). -/
structure RegFile where
  r0 : Byte
  r1 : Byte
  r2 : Byte
  r3 : Byte
  r4 : Byte
  /-- also `IM`, the interrupt mask (R20) -/
  r5 : Byte
  /-- also `IS`, the interrupt status (R21) -/
  r6 : Byte
  /-- also `SP`, the stack pointer (R22) -/
  r7 : Byte
  deriving DecidableEq, Repr

/-- `FL`, "3 bits — Less, Greater, Equal" (R17). -/
structure Flags where
  l : Bool
  g : Bool
  e : Bool
  deriving DecidableEq, Repr

/-- The run faults of spec/60_exceptions.md R170, each with the info value of R171 to R175. A fault ends the run and exposes no state (R176), so
every one of them is safe: the spec itself stops the machine there. -/
inductive Fault where
  /-- Raised by the operand fetch on a Raw operand cell (info: its address), by the lookup on an opcode byte outside the 34 (info: the byte) and
  by every instruction with a register operand above 7 (info: the byte) (R171). Safe: the spec's own stop. -/
  | decodeError (info : Nat)
  /-- Raised by a push at `SP = 0` (info -1) and a pop at `SP = 255` (info 256): `PUSH`, `POP`, `CALL`, `RET`, `IRET` and the interrupt service (R172).
  Safe: the spec's own stop. -/
  | stackFault (value : Int)
  /-- Raised by the halt check at `pc = 256` and by an operand fetch above address 255 (info: the address) (R173). Safe: the spec's own stop. -/
  | memoryFault (addr : Nat)
  /-- Raised by a data read that meets the wrong tag, and by `IRET` on an invalid saved flag word: `LD`, `POP`, `RET`, `IRET` and the interrupt
  service's vector read (info: the address read) (R174). Safe: the spec's own stop. -/
  | tagFault (addr : Nat)
  /-- Raised by `MOD` with a zero divisor (info: `pc0`) (R175). Safe: the spec's own stop. -/
  | arithmeticFault (pc : Nat)
  deriving DecidableEq, Repr

/-- What the model gives no meaning to. -/
inductive Refusal where
  /-- Raised by an arm of `exec` whose instruction has no meaning yet; no arm of this model raises it. Safe: nothing is claimed there. -/
  | notModelled (mnemonic : String)
  /-- Raised by the host command `run()` on a machine that was not loaded (spec/10_state.md R32, "a model gives them no meaning (refuses them)"). Safe. -/
  | runBeforeLoad
  /-- Raised by the host command `load` on a machine that was already loaded (R32). Safe. -/
  | loadedTwice
  /-- Raised by the host command `run()` or `load` on a machine whose run has ended (R32). Safe. -/
  | alreadyRun
  deriving DecidableEq, Repr

/-- `status` (R29): Running during the run, then exactly one of the others. "Once not `Running` the machine takes no further step". -/
inductive RunStatus where
  | running
  | halted
  | cancelled
  | fault (f : Fault)
  deriving DecidableEq, Repr

/-- The machine's state: the eight pieces of R10, the parameters of spec/00_scope.md R5 (log 4), and the model's own two fields for the
environment's draws (log 3). -/
structure State where
  /-- `M[0..255]` (R23, R24) -/
  mem : Memory
  /-- `x[0..7]` (R11 to R14) -/
  regs : RegFile
  /-- `FL` (R17, R18) -/
  fl : Flags
  /-- `pc`, an integer 0..256 (R15, R16) -/
  pc : Nat
  /-- `IE`, interrupts-enabled (R19) -/
  ie : Bool
  /-- `ACC`, the output accumulator, oldest first (R25) -/
  acc : List Byte
  /-- `PRNOUT`, the decimal records, oldest first (R26) -/
  prnOut : List (List Char)
  /-- the run status (R29) -/
  status : RunStatus
  /-- the parameters, written by no step (spec/00_scope.md R5) -/
  params : Config.Params
  /-- the model's own: the environment's draws at the coming polls, next first; once used up the free draws of Config follow (log 3) -/
  draws : List Config.Draw
  /-- the model's own: how many polls have been made (log 3) -/
  polls : Nat
  deriving DecidableEq, Repr

/-- The machine right after reset (R30, spec/70_reset_and_hazards.md R211). The source states `x[7]`, `pc`, `IE` and `ACC`; the other values are the
spec's decisions D3, D4, D5 (log 5, log 6); `params`, `draws` and `polls` are the model's (log 3, log 4). -/
def State.reset : State where
  mem := []
  regs := { r0 := 0, r1 := 0, r2 := 0, r3 := 0, r4 := 0, r5 := 0, r6 := 0, r7 := 0xF4 }
  fl := { l := false, g := false, e := false }
  pc := 0
  ie := true
  acc := []
  prnOut := []
  status := .running
  params := defaultParams
  draws := []
  polls := 0

end Sys2Proof.Machine
end

