-- ==== Sys2Proof/Machine/Flags.lean ====
section
/-!
DEFINITION. The flags: the comparison `CMP` makes, the conditions the six conditional jumps test, and the word the interrupt service saves and
`IRET` restores (spec/10_state.md R17, R18).
-/

namespace Sys2Proof.Machine

/-- `CMP`'s flags: unsigned comparison, exactly one of the three set and the other two cleared (spec/41_alu.md R124). -/
def compareFlags (x y : Byte) : Flags :=
  if x.toNat < y.toNat then { l := true, g := false, e := false }
  else if y.toNat < x.toNat then { l := false, g := true, e := false }
  else { l := false, g := false, e := true }

/-- `flagword(FL)`, the flags at their bit positions; with the default positions `4*FL.L + 2*FL.G + FL.E` (spec/10_state.md R17; log 7). -/
def flagWord (bits : Config.FlagBits) (f : Flags) : Nat :=
  2 ^ bits.l.val * f.l.toNat + 2 ^ bits.g.val * f.g.toNat + 2 ^ bits.e.val * f.e.toNat

/-- The flags a saved word restores: `IRET` accepts a word with no flag's bit or one flag's bit set, with the default positions 0, 1, 2 and 4 only
(spec/42_control_flow.md R141; log 16). -/
def flagsOfWord (bits : Config.FlagBits) (w : Nat) : Option Flags :=
  if w = 0 then some { l := false, g := false, e := false }
  else if w = 2 ^ bits.e.val then some { l := false, g := false, e := true }
  else if w = 2 ^ bits.g.val then some { l := false, g := true, e := false }
  else if w = 2 ^ bits.l.val then some { l := true, g := false, e := false }
  else none

/-! The conditions of spec/42_control_flow.md R132 to R137. -/

def condEqual (f : Flags) : Bool := f.e
def condNotEqual (f : Flags) : Bool := !f.e
def condGreater (f : Flags) : Bool := f.g
def condGreaterEqual (f : Flags) : Bool := f.g || f.e
def condLess (f : Flags) : Bool := f.l
def condLessEqual (f : Flags) : Bool := f.l || f.e

end Sys2Proof.Machine
end

