-- ==== Sys2Proof/Machine/Ops.lean ====
section
/-!
DEFINITION. The named operations over memory, registers, the stack and the output, and the one trap of this machine: the interrupt poll, the
service that enters a handler, and the return from it.
-/

namespace Sys2Proof.Machine

/-! ## Memory as a list in canonical form (log 20) -/

/-- What an address that nothing has written since reset reads as: `Raw(0)` (spec/10_state.md R30, decision D3; log 6). -/
def unlistedCell : Cell := .raw 0

/-- The cell at an address. -/
def Memory.read : Memory → Nat → Cell
  | [], _ => unlistedCell
  | p :: m, a => if p.1 = a then p.2 else Memory.read m a

/-- Place an entry in front of the first one of a higher or equal address. -/
def Memory.insertCell (a : Nat) (c : Cell) : Memory → Memory
  | [] => [(a, c)]
  | p :: m => if p.1 < a then p :: Memory.insertCell a c m else (a, c) :: p :: m

/-- Replace the whole cell at an address, tag and payload (spec/20_memory.md R43). Writing what an unlisted address reads as drops the entry. -/
def Memory.write (m : Memory) (a : Nat) (c : Cell) : Memory :=
  let others := m.filter (fun p => p.1 != a)
  if c = unlistedCell then others else Memory.insertCell a c others

/-- The canonical form: addresses strictly rising and below 256, no entry equal to what an unlisted address reads as. -/
abbrev Memory.wf (m : Memory) : Prop :=
  m.Pairwise (fun p q => p.1 < q.1) ∧ ∀ p ∈ m, p.1 < 256 ∧ p.2 ≠ unlistedCell

/-! ## The memory unit (spec/20_memory.md R41, R44) -/

/-- `M[a]`, with no check of the address. -/
def State.cellAt (s : State) (a : Nat) : Cell := Memory.read s.mem a

/-- `M[a] <- c`, with no check of the address. -/
def State.setCell (s : State) (a : Nat) (c : Cell) : State := { s with mem := Memory.write s.mem a c }

/-- `MemRead(addr, 1)` (R41). -/
def memRead (a : Nat) (s : State) : Except Fault Cell :=
  if 255 < a then .error (.memoryFault a) else .ok (s.cellAt a)

/-- `MemWrite(addr, 1, c)` (R41). -/
def memWrite (a : Nat) (c : Cell) (s : State) : Except Fault State :=
  if 255 < a then .error (.memoryFault a) else .ok (s.setCell a c)

/-- What `ReadByte` makes of the cell it read: `TagFault` on a Raw cell (R44; log 11). -/
def expectByte (a : Nat) : Cell → Except Fault Byte
  | .byte b => .ok b
  | .raw _ => .error (.tagFault a)

/-- What `ReadRaw` makes of the cell it read: `TagFault` on a Byte cell (R44; log 11). -/
def expectRaw (a : Nat) : Cell → Except Fault Nat
  | .raw n => .ok n
  | .byte _ => .error (.tagFault a)

/-- `ReadByte(addr)` (R44). -/
def readByte (a : Nat) (s : State) : Except Fault Byte := do
  let c ← memRead a s
  expectByte a c

/-! ## Registers and program counter -/

/-- `get(index) -> u8` (spec/10_state.md R11). -/
def RegFile.get (f : RegFile) : Reg → Byte
  | .r0 => f.r0
  | .r1 => f.r1
  | .r2 => f.r2
  | .r3 => f.r3
  | .r4 => f.r4
  | .r5 => f.r5
  | .r6 => f.r6
  | .r7 => f.r7

/-- `set(index, u8)` (R11): no register is hardwired. -/
def RegFile.set (f : RegFile) (r : Reg) (v : Byte) : RegFile :=
  match r with
  | .r0 => { f with r0 := v }
  | .r1 => { f with r1 := v }
  | .r2 => { f with r2 := v }
  | .r3 => { f with r3 := v }
  | .r4 => { f with r4 := v }
  | .r5 => { f with r5 := v }
  | .r6 => { f with r6 := v }
  | .r7 => { f with r7 := v }

/-- `x[i]` -/
def State.reg (s : State) (r : Reg) : Byte := s.regs.get r

/-- `x[i] <- v` -/
def State.setReg (s : State) (r : Reg) (v : Byte) : State := { s with regs := s.regs.set r v }

/-- `pc <- target` -/
def State.setPc (s : State) (target : Nat) : State := { s with pc := target }

/-- `FL <- (l, g, e)` -/
def State.setFlags (s : State) (f : Flags) : State := { s with fl := f }

/-- `IE <- v` -/
def State.setIe (s : State) (v : Bool) : State := { s with ie := v }

/-- `status <- v` -/
def State.setStatus (s : State) (v : RunStatus) : State := { s with status := v }

/-- `pc <- pc0 + len`: "The sum is not reduced modulo 256; it can be 256" (spec/40_fetch_decode_dispatch.md R96). -/
def State.advance (s : State) (len : Nat) : State := s.setPc (s.pc + len)

/-! ## Output (spec/43_core.md R158, R159; log 22) -/

/-- `ACC <- ACC ++ [c]` -/
def State.appendAcc (s : State) (c : Byte) : State := { s with acc := s.acc ++ [c] }

/-- `PRNOUT <- PRNOUT ++ [s]` -/
def State.appendPrn (s : State) (record : List Char) : State := { s with prnOut := s.prnOut ++ [record] }

/-- The character of a decimal digit. -/
def digitChar (d : Nat) : Char := Char.ofNat (48 + d)

/-- `decimal(v)`: "the base-10 numeral of v with no sign, no leading zeros and no padding" (R158). -/
def decimal (v : Byte) : List Char :=
  let n := v.toNat
  if n < 10 then [digitChar n]
  else if n < 100 then [digitChar (n / 10), digitChar (n % 10)]
  else [digitChar (n / 100), digitChar (n / 10 % 10), digitChar (n % 10)]

/-! ## The stack primitives (spec/20_memory.md R56, R57) -/

/-- The stack pointer after a push's pre-decrement, which must stay in 0..255. -/
def decrementSp (s : State) : Except Fault State :=
  if s.reg .r7 = 0#8 then .error (.stackFault (-1)) else .ok (s.setReg .r7 (s.reg .r7 - 1#8))

/-- The stack pointer after a pop's post-increment, which must stay in 0..255. -/
def incrementSp (s : State) : Except Fault State :=
  if s.reg .r7 = 255#8 then .error (.stackFault 256) else .ok (s.setReg .r7 (s.reg .r7 + 1#8))

/-- `Push(c)` (R56). -/
def push (c : Cell) (s : State) : Except Fault State := do
  let s1 ← decrementSp s
  memWrite (s1.reg .r7).toNat c s1

/-- `Pop()` (R57): the cell, and the state with the stack pointer incremented. -/
def pop (s : State) : Except Fault (Cell × State) := do
  let c ← memRead (s.reg .r7).toNat s
  let s1 ← incrementSp s
  .ok (c, s1)

/-- A pop whose cell must be a Byte, as `IRET` pops registers (spec/42_control_flow.md R141). -/
def popByte (s : State) : Except Fault (Byte × State) := do
  let (c, s1) ← pop s
  let b ← expectByte (s.reg .r7).toNat c
  .ok (b, s1)

/-- A pop whose cell must be Raw, as `RET` and `IRET` pop (spec/42_control_flow.md R139, R141). -/
def popRaw (s : State) : Except Fault (Nat × State) := do
  let (c, s1) ← pop s
  let n ← expectRaw (s.reg .r7).toNat c
  .ok (n, s1)

/-- Push registers as Byte cells, in list order. -/
def pushRegs : List Reg → State → Except Fault State
  | [], s => .ok s
  | r :: rs, s => do
    let s1 ← push (.byte (s.reg r)) s
    pushRegs rs s1

/-- Pop Byte cells into registers, in list order. -/
def popRegs : List Reg → State → Except Fault State
  | [], s => .ok s
  | r :: rs, s => do
    let (b, s1) ← popByte s
    popRegs rs (s1.setReg r b)

/-- Zero registers. -/
def zeroRegs : List Reg → State → State
  | [], s => s
  | r :: rs, s => zeroRegs rs (s.setReg r 0#8)

/-! ## Taking an interrupt and returning from it (spec/60_exceptions.md R187, spec/42_control_flow.md R141) -/

/-- The registers the service saves, "all general-purpose registers except the stack pointer", in push order (R187, decision D15; log 9). -/
def savedRegs : List Reg := [.r0, .r1, .r2, .r3, .r4, .r5, .r6]

/-- The byte with bit `n` alone set; 0 for `n >= 8` ("`1 << n` truncated to 8 bits is 0", spec/42_control_flow.md R140). -/
def lineBit (n : Nat) : Byte := trunc8 (2 ^ n)

/-- Make a line pending: `IS <- IS | (1 << n)`. -/
def raiseLine (n : Nat) (s : State) : State := s.setReg .r6 (s.reg .r6 ||| lineBit n)

/-- "Clear its bit in IS": `IS <- IS & (255 - (1 << n))`. -/
def clearLine (n : Nat) (s : State) : State := s.setReg .r6 (s.reg .r6 &&& ~~~ lineBit n)

/-- `Service(n)`: enter the handler of line `n` (R187). Saves `pc`, the flag word and `x[0]` to `x[6]` on the stack, zeroes `x[0]` to `x[6]`,
clears `IE` and takes `pc` from the vector slot. -/
def service (n : Nat) (s : State) : Except Fault State := do
  let s1 := (clearLine n s).setIe false
  let s2 ← push (.raw s1.pc) s1
  let s3 ← push (.raw (flagWord s.params.flagBits s2.fl)) s2
  let s4 ← pushRegs savedRegs s3
  let s5 := zeroRegs savedRegs s4
  let handler ← readByte (s5.params.vectorBase.val + n) s5
  .ok (s5.setPc handler.toNat)

/-- `IRET`: "the exact inverse of the service order" (R141). -/
def interruptReturn (s : State) : Except Fault State := do
  let s1 ← popRegs savedRegs.reverse s
  let (w, s2) ← popRaw s1
  match flagsOfWord s.params.flagBits w with
  | none => .error (.tagFault (s1.reg .r7).toNat)
  | some f =>
    let (target, s3) ← popRaw s2
    .ok (((s3.setFlags f).setPc target).setIe true)

/-! ## The poll (spec/60_exceptions.md R182) -/

/-- The environment's draw at the next poll: the next of `draws`, else the free draws of Config (log 3). -/
def State.draw (s : State) : Config.Draw :=
  match s.draws with
  | d :: _ => d
  | [] => { tick := Config.tick s.polls, key := Config.key s.polls }

/-- A poll has sampled its draw. -/
def State.consumeDraw (s : State) : State := { s with draws := s.draws.tail, polls := s.polls + 1 }

/-- "service the lowest-numbered active line" (R186): the least n in 0..7 with bit n set. -/
def lowestLine (active : Byte) : Option Nat := [0, 1, 2, 3, 4, 5, 6, 7].find? (fun n => active.getLsbD n)

/-- The third step of a poll: "Compute active = IM & IS. If nonzero, service the lowest-numbered active line" (R186). -/
def serviceActive (s : State) : Except Fault State :=
  match lowestLine (s.reg .r5 &&& s.reg .r6) with
  | none => .ok s
  | some n => service n s

/-- The timer source at a poll (R183). -/
def pollTimer (tick : Bool) (s : State) : State := if tick then raiseLine 0 s else s

/-- The keyboard source and the service (R184 to R186): the cancel sentinel ends the run inside the poll, before any service (log 18). -/
def pollKeyboard (key : Option Byte) (s : State) : Except Fault State :=
  match key with
  | none => serviceActive s
  | some c =>
    if c = s.params.cancelKey then .ok (s.setStatus .cancelled)
    else do
      let s1 ← memWrite s.params.keyAddr.toNat (.byte c) s
      serviceActive (raiseLine 1 s1)

/-- `Poll(tick, key)` (R182). -/
def poll (s : State) : Except Fault State := pollKeyboard s.draw.key (pollTimer s.draw.tick s.consumeDraw)

/-- Step 1 of an iteration: the poll, "performed only when IE is true" (R182, spec/40_fetch_decode_dispatch.md R90). -/
def pollPhase (s : State) : Except Fault State := if s.ie then poll s else .ok s

end Sys2Proof.Machine
end

