-- ==== Sys2Proof/Machine/Operands.lean ====
section
/-!
DEFINITION. The operand forms: a register byte, checked before any effect (spec/30_encoding.md R62), and the shapes the instructions share. An
immediate (R63) is the operand byte itself and needs no operation.
-/

namespace Sys2Proof.Machine

/-- What a step of this machine answers. -/
abbrev Outcome := Host.Outcome State Fault Refusal

/-- `reg(op)`: "if op <= 7 then return op else raise DecodeError(op)" (R62). -/
def reg (op : Byte) : Except Fault Reg :=
  match op.toNat with
  | 0 => .ok .r0
  | 1 => .ok .r1
  | 2 => .ok .r2
  | 3 => .ok .r3
  | 4 => .ok .r4
  | 5 => .ok .r5
  | 6 => .ok .r6
  | 7 => .ok .r7
  | n => .error (.decodeError n)

/-- A computation's result as the step's outcome: a raised fault ends the run (spec/60_exceptions.md R176). -/
def finish : Except Fault State → Outcome
  | .ok s => .next s
  | .error f => .fault f

/-- An instruction with one register operand: the check, then the effect. -/
def withReg (a : Byte) (effect : Reg → Except Fault State) : Outcome :=
  finish (do
    let ra ← reg a
    effect ra)

/-- An instruction with two register operands: both checks, A before B, then the effect. -/
def withRegs (a b : Byte) (effect : Reg → Reg → Except Fault State) : Outcome :=
  finish (do
    let ra ← reg a
    let rb ← reg b
    effect ra rb)

end Sys2Proof.Machine
end

