-- ==== Sys2Proof/Machine/Alu.lean ====
section
/-!
DEFINITION. The meanings of the 14 ALU instructions (spec/41_alu.md). Results are computed on integers and then truncated to 8 bits (R110(c)).
-/

namespace Sys2Proof.Machine

/-! ## The results -/

/-- R111 -/
def addResult (x y : Byte) : Byte := trunc8 (x.toNat + y.toNat)

/-- R112: the difference modulo 256, or the product when `SUB_LEGACY_PRODUCT` (log 4). -/
def subResult (legacyProduct : Bool) (x y : Byte) : Byte :=
  if legacyProduct then trunc8 (x.toNat * y.toNat) else BitVec.ofInt 8 ((x.toNat : Int) - y.toNat)

/-- R113 -/
def mulResult (x y : Byte) : Byte := trunc8 (x.toNat * y.toNat)

/-- R123, and R114 for `DIV`, which "computes exactly what `SHR` computes": the whole byte is the count (log 15). -/
def shrResult (x y : Byte) : Byte := trunc8 (x.toNat / 2 ^ y.toNat)

/-- R122 (log 15) -/
def shlResult (x y : Byte) : Byte := trunc8 (x.toNat * 2 ^ y.toNat)

/-- R115, for a nonzero divisor -/
def modResult (x y : Byte) : Byte := trunc8 (x.toNat % y.toNat)

/-- R116 -/
def andResult (x y : Byte) : Byte := x &&& y

/-- R117 -/
def orResult (x y : Byte) : Byte := x ||| y

/-- R118 -/
def xorResult (x y : Byte) : Byte := x ^^^ y

/-- R119 -/
def notResult (x : Byte) : Byte := trunc8 (255 - x.toNat)

/-- R120 -/
def incResult (x : Byte) : Byte := trunc8 (x.toNat + 1)

/-- R121 -/
def decResult (x : Byte) : Byte := BitVec.ofInt 8 ((x.toNat : Int) - 1)

/-! ## The two shapes -/

/-- "computes over register A (and B where binary) and writes the 8-bit-truncated result back into register A" (R110), then `pc <- pc0 + 3`. -/
def aluBinary (f : Byte → Byte → Byte) (a b : Byte) (s : State) : Outcome :=
  withRegs a b fun ra rb => .ok ((s.setReg ra (f (s.reg ra) (s.reg rb))).advance 3)

/-- The one-operand form, then `pc <- pc0 + 2`. -/
def aluUnary (f : Byte → Byte) (a : Byte) (s : State) : Outcome :=
  withReg a fun ra => .ok ((s.setReg ra (f (s.reg ra))).advance 2)

/-! ## The meanings -/

/-- `ADD A,B` (R111) -/
def execAdd (a b : Byte) (s : State) : Outcome := aluBinary addResult a b s

/-- `SUB A,B` (R112) -/
def execSub (a b : Byte) (s : State) : Outcome := aluBinary (subResult s.params.subLegacyProduct) a b s

/-- `MUL A,B` (R113) -/
def execMul (a b : Byte) (s : State) : Outcome := aluBinary mulResult a b s

/-- `DIV A,B` (R114): a right shift -/
def execDiv (a b : Byte) (s : State) : Outcome := aluBinary shrResult a b s

/-- `MOD A,B` (R115): "if x[b] = 0: raise ArithmeticFault(pc0)" (log 14) -/
def execMod (a b : Byte) (s : State) : Outcome :=
  withRegs a b fun ra rb =>
    if s.reg rb = 0#8 then .error (.arithmeticFault s.pc)
    else .ok ((s.setReg ra (modResult (s.reg ra) (s.reg rb))).advance 3)

/-- `INC A` (R120) -/
def execInc (a : Byte) (s : State) : Outcome := aluUnary incResult a s

/-- `DEC A` (R121) -/
def execDec (a : Byte) (s : State) : Outcome := aluUnary decResult a s

/-- `CMP A,B` (R124): the one ALU instruction that writes `FL`, and no register -/
def execCmp (a b : Byte) (s : State) : Outcome :=
  withRegs a b fun ra rb => .ok ((s.setFlags (compareFlags (s.reg ra) (s.reg rb))).advance 3)

/-- `AND A,B` (R116) -/
def execAnd (a b : Byte) (s : State) : Outcome := aluBinary andResult a b s

/-- `NOT A` (R119) -/
def execNot (a : Byte) (s : State) : Outcome := aluUnary notResult a s

/-- `OR A,B` (R117) -/
def execOr (a b : Byte) (s : State) : Outcome := aluBinary orResult a b s

/-- `XOR A,B` (R118) -/
def execXor (a b : Byte) (s : State) : Outcome := aluBinary xorResult a b s

/-- `SHL A,B` (R122) -/
def execShl (a b : Byte) (s : State) : Outcome := aluBinary shlResult a b s

/-- `SHR A,B` (R123) -/
def execShr (a b : Byte) (s : State) : Outcome := aluBinary shrResult a b s

end Sys2Proof.Machine
end

