-- ==== Sys2Proof/Machine/Control.lean ====
section
/-!
DEFINITION. The meanings of the 11 control-flow instructions (spec/42_control_flow.md). Each writes `pc` itself (R130(a)); a target is always the
value of a register (R130(b)).
-/

namespace Sys2Proof.Machine

/-- A jump to `x[A]` when the condition holds, else "fall through to the next instruction": `pc <- pc0 + 2` (R131 to R137). -/
def jumpIf (taken : Bool) (a : Byte) (s : State) : Outcome :=
  withReg a fun ra => .ok (if taken then s.setPc (s.reg ra).toNat else s.advance 2)

/-- `JMP A` (R131) -/
def execJmp (a : Byte) (s : State) : Outcome := jumpIf true a s

/-- `JEQ A` (R132) -/
def execJeq (a : Byte) (s : State) : Outcome := jumpIf (condEqual s.fl) a s

/-- `JNE A` (R133) -/
def execJne (a : Byte) (s : State) : Outcome := jumpIf (condNotEqual s.fl) a s

/-- `JGT A` (R134) -/
def execJgt (a : Byte) (s : State) : Outcome := jumpIf (condGreater s.fl) a s

/-- `JGE A` (R135) -/
def execJge (a : Byte) (s : State) : Outcome := jumpIf (condGreaterEqual s.fl) a s

/-- `JLT A` (R136) -/
def execJlt (a : Byte) (s : State) : Outcome := jumpIf (condLess s.fl) a s

/-- `JLE A` (R137) -/
def execJle (a : Byte) (s : State) : Outcome := jumpIf (condLessEqual s.fl) a s

/-- `CALL A` (R138): the target is "read after the push" (log 10) -/
def execCall (a : Byte) (s : State) : Outcome :=
  withReg a fun ra => do
    let s1 ← push (.raw (s.pc + 2)) s
    .ok (s1.setPc (s1.reg ra).toNat)

/-- `RET` (R139) -/
def execRet (s : State) : Outcome :=
  finish (do
    let (target, s1) ← popRaw s
    .ok (s1.setPc target))

/-- `INT A` (R140): make line `x[A]` pending if there is one, and nothing else (log 8) -/
def execInt (a : Byte) (s : State) : Outcome :=
  withReg a fun ra =>
    let n := (s.reg ra).toNat
    .ok ((if n ≤ 7 then raiseLine n s else s).advance 2)

/-- `IRET` (R141) -/
def execIret (s : State) : Outcome := finish (interruptReturn s)

end Sys2Proof.Machine
end

