-- ==== Sys2Proof/Machine/CoreOps.lean ====
section
/-!
DEFINITION. The meanings of the 9 core instructions (spec/43_core.md), each ending with `pc <- pc0 + len` (R150(b)).
-/

namespace Sys2Proof.Machine

/-- `NOP` (R151) -/
def execNop (s : State) : Outcome := .next (s.advance 1)

/-- `HLT` (R152): "`HLT` does not stop the machine" -/
def execHlt (s : State) : Outcome := .next (s.advance 1)

/-- `LDI A,imm` (R153) -/
def execLdi (a imm : Byte) (s : State) : Outcome :=
  withReg a fun ra => .ok ((s.setReg ra imm).advance 3)

/-- `LD A,B` (R154) -/
def execLd (a b : Byte) (s : State) : Outcome :=
  withRegs a b fun ra rb => do
    let v ← readByte (s.reg rb).toNat s
    .ok ((s.setReg ra v).advance 3)

/-- `ST A,B` (R155): A is the address, B the value -/
def execSt (a b : Byte) (s : State) : Outcome :=
  withRegs a b fun ra rb => do
    let s1 ← memWrite (s.reg ra).toNat (.byte (s.reg rb)) s
    .ok (s1.advance 3)

/-- `PUSH A` (R156): "`x[a]` read after the decrement" (log 10) -/
def execPush (a : Byte) (s : State) : Outcome :=
  withReg a fun ra => do
    let s1 ← decrementSp s
    let s2 ← memWrite (s1.reg .r7).toNat (.byte (s1.reg ra)) s1
    .ok (s2.advance 2)

/-- `POP A` (R157): the tag check, the register write, then the increment of `x[7]` "read after the register write" (log 10) -/
def execPop (a : Byte) (s : State) : Outcome :=
  withReg a fun ra => do
    let v ← readByte (s.reg .r7).toNat s
    let s1 ← incrementSp (s.setReg ra v)
    .ok (s1.advance 2)

/-- `PRN A` (R158) -/
def execPrn (a : Byte) (s : State) : Outcome :=
  withReg a fun ra => .ok ((s.appendPrn (decimal (s.reg ra))).advance 2)

/-- `PRA A` (R159) -/
def execPra (a : Byte) (s : State) : Outcome :=
  withReg a fun ra => .ok ((s.appendAcc (s.reg ra)).advance 2)

end Sys2Proof.Machine
end

