-- ==== Sys2Proof/Syntax.lean ====
section
/-!
DEFINITION. The 34 instructions of spec/30_encoding.md R64, one constructor per row of spec/opcode_table.json. The arguments are the decoded
operand bytes: "handlers dereference these indices into the Register File" (spec/10_state.md R14), so a byte above 7 is still syntax and the
instruction's own rule raises `DecodeError` for it (spec/30_encoding.md R62, spec/40_fetch_decode_dispatch.md R95).
-/

namespace Sys2Proof

inductive Instr where
  -- ALU namespace (spec/41_alu.md)
  | add (a b : Byte)
  | sub (a b : Byte)
  | mul (a b : Byte)
  | div (a b : Byte)
  | mod (a b : Byte)
  | inc (a : Byte)
  | dec (a : Byte)
  | cmp (a b : Byte)
  | and (a b : Byte)
  | not (a : Byte)
  | or (a b : Byte)
  | xor (a b : Byte)
  | shl (a b : Byte)
  | shr (a b : Byte)
  -- control-flow namespace (spec/42_control_flow.md)
  | call (a : Byte)
  | ret
  | int (a : Byte)
  | iret
  | jmp (a : Byte)
  | jeq (a : Byte)
  | jne (a : Byte)
  | jgt (a : Byte)
  | jlt (a : Byte)
  | jle (a : Byte)
  | jge (a : Byte)
  -- core namespace (spec/43_core.md)
  | nop
  | hlt
  | ldi (a imm : Byte)
  | ld (a b : Byte)
  | st (a b : Byte)
  | push (a : Byte)
  | pop (a : Byte)
  | prn (a : Byte)
  | pra (a : Byte)
  deriving DecidableEq, Repr

end Sys2Proof
end

