-- ==== Sys2Proof/WellFormed.lean ====
section
/-!
DEFINITION. When an instruction is well formed: every register operand byte is 0..7 (spec/30_encoding.md R62).
-/

namespace Sys2Proof

/-- The operand bytes that name registers, A before B. `LDI`'s second operand is an immediate and is not among them (spec/30_encoding.md R63). -/
def Instr.registerOperands : Instr → List Byte
  | .add a b => [a, b]
  | .sub a b => [a, b]
  | .mul a b => [a, b]
  | .div a b => [a, b]
  | .mod a b => [a, b]
  | .inc a => [a]
  | .dec a => [a]
  | .cmp a b => [a, b]
  | .and a b => [a, b]
  | .not a => [a]
  | .or a b => [a, b]
  | .xor a b => [a, b]
  | .shl a b => [a, b]
  | .shr a b => [a, b]
  | .call a => [a]
  | .ret => []
  | .int a => [a]
  | .iret => []
  | .jmp a => [a]
  | .jeq a => [a]
  | .jne a => [a]
  | .jgt a => [a]
  | .jlt a => [a]
  | .jle a => [a]
  | .jge a => [a]
  | .nop => []
  | .hlt => []
  | .ldi a _ => [a]
  | .ld a b => [a, b]
  | .st a b => [a, b]
  | .push a => [a]
  | .pop a => [a]
  | .prn a => [a]
  | .pra a => [a]

/-- "its value must be 0..7, that is the byte has the form `0b00000rrr`" (spec/30_encoding.md R62). -/
def registerByte (op : Byte) : Bool := op.toNat ≤ 7

/-- Every register operand byte of the instruction names a register. -/
def Instr.wellFormed (i : Instr) : Bool := i.registerOperands.all registerByte

end Sys2Proof
end

