-- ==== Sys2Proof/Decode.lean ====
section
/-!
DEFINITION. The decoder, from the opcode byte's fields (spec/30_encoding.md R61, spec/40_fetch_decode_dispatch.md R93, R95), and after it the
encoder. Both take `OPMAP`, the assignment of `op_code` values to mnemonics, as an argument (spec/00_scope.md R5; log 1).
-/

namespace Sys2Proof

/-! ## The fields of an opcode byte (R61, R93) -/

/-- `operand_count <- b[7:6]` -/
def operandCount (opcode : Byte) : Nat := opcode.toNat / 64

/-- `is_alu <- b[5]` -/
def isAlu (opcode : Byte) : Bool := opcode.getLsbD 5

/-- `sets_pc <- b[4]` -/
def setsPc (opcode : Byte) : Bool := opcode.getLsbD 4

/-- `op_code <- b[3:0]` -/
def opCode (opcode : Byte) : Nat := opcode.toNat % 16

/-! ## The instructions' fields: namespace (the tables of R64), `op_code` (`OPMAP`), operand bytes (R61) -/

/-- The instruction's `op_code` value under `OPMAP`. -/
def OpMap.code (m : Config.OpMap) : Instr → Fin 16
  | .add _ _ => m.add
  | .sub _ _ => m.sub
  | .mul _ _ => m.mul
  | .div _ _ => m.div
  | .mod _ _ => m.mod
  | .inc _ => m.inc
  | .dec _ => m.dec
  | .cmp _ _ => m.cmp
  | .and _ _ => m.and
  | .not _ => m.not
  | .or _ _ => m.or
  | .xor _ _ => m.xor
  | .shl _ _ => m.shl
  | .shr _ _ => m.shr
  | .call _ => m.call
  | .ret => m.ret
  | .int _ => m.int
  | .iret => m.iret
  | .jmp _ => m.jmp
  | .jeq _ => m.jeq
  | .jne _ => m.jne
  | .jgt _ => m.jgt
  | .jlt _ => m.jlt
  | .jle _ => m.jle
  | .jge _ => m.jge
  | .nop => m.nop
  | .hlt => m.hlt
  | .ldi _ _ => m.ldi
  | .ld _ _ => m.ld
  | .st _ _ => m.st
  | .push _ => m.push
  | .pop _ => m.pop
  | .prn _ => m.prn
  | .pra _ => m.pra

/-- The instruction is in the ALU namespace: its opcode byte has `is_alu = 1`, `sets_pc = 0` (R64). -/
def Instr.inAlu : Instr → Bool
  | .add _ _ => true
  | .sub _ _ => true
  | .mul _ _ => true
  | .div _ _ => true
  | .mod _ _ => true
  | .inc _ => true
  | .dec _ => true
  | .cmp _ _ => true
  | .and _ _ => true
  | .not _ => true
  | .or _ _ => true
  | .xor _ _ => true
  | .shl _ _ => true
  | .shr _ _ => true
  | .call _ => false
  | .ret => false
  | .int _ => false
  | .iret => false
  | .jmp _ => false
  | .jeq _ => false
  | .jne _ => false
  | .jgt _ => false
  | .jlt _ => false
  | .jle _ => false
  | .jge _ => false
  | .nop => false
  | .hlt => false
  | .ldi _ _ => false
  | .ld _ _ => false
  | .st _ _ => false
  | .push _ => false
  | .pop _ => false
  | .prn _ => false
  | .pra _ => false

/-- The instruction is in the control-flow namespace: its opcode byte has `is_alu = 0`, `sets_pc = 1` (R64). -/
def Instr.inControl : Instr → Bool
  | .add _ _ => false
  | .sub _ _ => false
  | .mul _ _ => false
  | .div _ _ => false
  | .mod _ _ => false
  | .inc _ => false
  | .dec _ => false
  | .cmp _ _ => false
  | .and _ _ => false
  | .not _ => false
  | .or _ _ => false
  | .xor _ _ => false
  | .shl _ _ => false
  | .shr _ _ => false
  | .call _ => true
  | .ret => true
  | .int _ => true
  | .iret => true
  | .jmp _ => true
  | .jeq _ => true
  | .jne _ => true
  | .jgt _ => true
  | .jlt _ => true
  | .jle _ => true
  | .jge _ => true
  | .nop => false
  | .hlt => false
  | .ldi _ _ => false
  | .ld _ _ => false
  | .st _ _ => false
  | .push _ => false
  | .pop _ => false
  | .prn _ => false
  | .pra _ => false

/-- The operand bytes, lowest address first (R60): the register bytes, then `LDI`'s immediate. -/
def Instr.operandBytes : Instr → List Byte
  | .ldi a imm => [a, imm]
  | i => i.registerOperands

/-! ## The lookup (R64, R65, R95) -/

/-- The key of dispatch's "three-level lookup keyed by `(is_alu, sets_pc, op_code)`" (R95). -/
abbrev Key := Bool × Bool × Nat

/-- The key an opcode byte gives. -/
def keyOf (opcode : Byte) : Key := (isAlu opcode, setsPc opcode, opCode opcode)

/-- The key under which an instruction stands. "The fourth namespace (`is_alu = 1`, `sets_pc = 1`) holds no instruction" (R64). -/
def Instr.key (m : Config.OpMap) (i : Instr) : Key := (i.inAlu, i.inControl, (OpMap.code m i).val)

/-- The 34 instructions with the given operand bytes, in the order of R64's tables. -/
def rows (a b : Byte) : List Instr :=
  [.add a b, .sub a b, .mul a b, .div a b, .mod a b, .inc a, .dec a, .cmp a b, .and a b, .not a, .or a b, .xor a b, .shl a b, .shr a b] ++
  [.call a, .ret, .int a, .iret, .jmp a, .jeq a, .jne a, .jgt a, .jlt a, .jle a, .jge a] ++
  [.nop, .hlt, .ldi a b, .ld a b, .st a b, .push a, .pop a, .prn a, .pra a]

/-- No two mnemonics of one namespace share an `op_code` value. -/
abbrev OpMap.valid (m : Config.OpMap) : Prop := ((rows 0 0).map (Instr.key m)).Nodup

/-- The lookup: the instruction under the opcode byte's key, if the operand count of bits 7:6 is that instruction's own (R65, decision D2; log 12). -/
def lookup (m : Config.OpMap) (opcode a b : Byte) : Option Instr :=
  match (rows a b).find? (fun i => i.key m == keyOf opcode) with
  | some i => if i.operandBytes.length = operandCount opcode then some i else none
  | none => none

/-- Why a byte sequence is no instruction. -/
inductive Reject where
  /-- there is no opcode byte -/
  | noOpcode
  /-- fewer operand bytes follow than bits 7:6 of the opcode byte announce -/
  | truncated (opcode : Byte)
  /-- "Every opcode byte that is not one of the 34 of rule R64 is illegal" (R66), the 34 being those of `OPMAP` -/
  | illegalOpcode (opcode : Byte)
  deriving DecidableEq, Repr

/-- Decode the first instruction of a byte sequence, lowest address first, and give the bytes after it. The length is read from bits 7:6 of the
opcode byte alone, before the lookup (R68). A register operand byte above 7 decodes: the instruction's rule refuses it (R62, log 13). -/
def decode (m : Config.OpMap) : List Byte → Except Reject (Instr × List Byte)
  | [] => .error .noOpcode
  | opcode :: rest =>
    if rest.length < operandCount opcode then .error (.truncated opcode)
    else
      match lookup m opcode (rest.getD 0 0) (rest.getD 1 0) with
      | some i => .ok (i, rest.drop (operandCount opcode))
      | none => .error (.illegalOpcode opcode)

/-- The bytes of an instruction numbered as spec/opcode_table.json numbers them: "`match` and `mask` over the whole instruction with the opcode
byte as the most significant byte" (R64), so the first byte is bits nbits-1 .. nbits-8 (log 2). -/
def tableBytes : Nat → Nat → List Byte
  | 0, _ => []
  | n + 1, w => trunc8 (w / 256 ^ n) :: tableBytes n w

/-- The bytes of a table word followed by zero operand bytes, as many as the longest instruction could still need. -/
def tableWordBytes (nbits w : Nat) : List Byte := tableBytes (nbits / 8) w ++ List.replicate (3 - nbits / 8) 0

/-- The instruction the decoder reads from a table word, under R64's own `OPMAP`. -/
def decodeTableWord (nbits w : Nat) : Option Instr :=
  match decode Machine.defaultOpMap (tableWordBytes nbits w) with
  | .ok (i, _) => some i
  | .error _ => none

/-! ## The encoder -/

/-- The opcode byte `0bNNASCCCC` (R61): the operand count in bits 7:6, `is_alu` in bit 5, `sets_pc` in bit 4, `op_code` in bits 3:0. -/
def opcodeByte (count : Nat) (alu setsPc : Bool) (code : Fin 16) : Byte :=
  trunc8 (64 * count + 32 * alu.toNat + 16 * setsPc.toNat + code.val)

/-- The instruction's opcode byte; with the default `OPMAP`, the "hex" column of R64's tables. -/
def Instr.opcode (m : Config.OpMap) (i : Instr) : Byte := opcodeByte i.operandBytes.length i.inAlu i.inControl (OpMap.code m i)

/-- The bytes of an instruction, lowest address first (R60). -/
def encode (m : Config.OpMap) (i : Instr) : List Byte := i.opcode m :: i.operandBytes

end Sys2Proof
end

