-- ==== Sys2Proof/Machine/Fetch.lean ====
section
/-!
DEFINITION. The halt check and the fetch of an instruction (spec/40_fetch_decode_dispatch.md R92 to R95), and where a word is placed to be
fetched next.
-/

namespace Sys2Proof.Machine

/-- The operand fetch (R94): `count` Byte cells from address `a` on, in rising order. "MemoryFault(pc0 + k) if pc0 + k > 255"; a Raw operand cell
is a `DecodeError` (log 11). -/
def fetchOperands : Nat → Nat → State → Except Fault (List Byte)
  | 0, _, _ => .ok []
  | count + 1, a, s => do
    let c ← memRead a s
    match c with
    | .raw _ => .error (.decodeError a)
    | .byte b => do
      let rest ← fetchOperands count (a + 1) s
      .ok (b :: rest)

/-- Steps 2 to 4 of an iteration up to the lookup (R90): `none` when the cell at `pc` is Raw, "the machine's halt signal" (R92); else the
instruction the bytes at `pc` decode to. The operands announced by bits 7:6 are fetched before the lookup (R94, R98). -/
def fetch (s : State) : Except Fault (Option Instr) := do
  let c ← memRead s.pc s
  match c with
  | .raw _ => .ok none
  | .byte opcode => do
    let operands ← fetchOperands (operandCount opcode) (s.pc + 1) s
    match decode s.params.opMap (opcode :: operands) with
    | .ok (i, _) => .ok (some i)
    | .error _ => .error (.decodeError opcode.toNat)

/-- Place bytes as Byte cells at rising addresses from `a` on, those that lie in memory. -/
def placeBytes : List Byte → Nat → State → State
  | [], _, s => s
  | b :: bs, a, s => placeBytes bs (a + 1) (if a ≤ 255 then s.setCell a (.byte b) else s)

/-- Where the next step fetches: `pc` after the poll of that step. -/
def nextFetchAddress (s : State) : Nat :=
  match pollPhase s with
  | .ok s1 => s1.pc
  | .error _ => s.pc

/-- The state in which the very next step samples a quiet draw (no timer fire, no key) and fetches the given bytes (log 24). -/
def placeNext (bytes : List Byte) (s : State) : State :=
  let s1 : State := { s with status := .running, draws := Config.Draw.quiet :: s.draws }
  placeBytes bytes (nextFetchAddress s1) s1

end Sys2Proof.Machine
end

