-- ==== Sys2Proof/Machine/Step.lean ====
section
/-!
DEFINITION. One iteration of the execution loop (spec/40_fetch_decode_dispatch.md R90).
-/

namespace Sys2Proof.Machine

/-- Steps 2 to 5 of an iteration: the halt check, the fetch, the instruction. -/
def fetchAndExecute (s : State) : Host.Outcome State Fault Refusal :=
  match fetch s with
  | .error f => .fault f
  | .ok none => .next (s.setStatus .halted)
  | .ok (some i) => exec i s

/-- One iteration from a running state: the poll (if `IE`), then, unless the poll ended the run, the halt check, the fetch and the
instruction (R90, R98). "Once not `Running` the machine takes no further step" (spec/10_state.md R29): a halted or cancelled state stays as
it is, and a faulted status answers its fault (log 21). -/
def step (s : State) : Host.Outcome State Fault Refusal :=
  match s.status with
  | .running =>
    match pollPhase s with
    | .error f => .fault f
    | .ok s1 => if s1.status = .running then fetchAndExecute s1 else .next s1
  | .halted => .next s
  | .cancelled => .next s
  | .fault f => .fault f

/-- The state in which the next step fetches and runs exactly the given table word (log 24). -/
def State.withFetchWord (s : State) (nbits w : Nat) : State := placeNext (tableWordBytes nbits w) s

end Sys2Proof.Machine
end

