-- ==== Sys2Proof/Machine/Loader.lean ====
section
/-!
DEFINITION. The program loader (spec/30_encoding.md R72 to R80). A text line is a list of characters (log 23).
-/

namespace Sys2Proof.Machine

/-- The loader's errors (R77, R79, spec/60_exceptions.md R177). They are raised before any execution and leave no machine. -/
inductive LoadError where
  | invalidEncoding
  | programTooLarge
  deriving DecidableEq, Repr

/-- "Strip everything from a `#` character onward" (R73). -/
def stripComment (line : List Char) : List Char := line.takeWhile (fun c => c != '#')

/-- Space, horizontal tab, line feed, vertical tab, form feed, carriage return (R74, decision D21; log 23). -/
def isSpace (c : Char) : Bool := [32, 9, 10, 11, 12, 13].contains c.toNat

/-- "strip surrounding whitespace" (R74). -/
def stripSpace (line : List Char) : List Char :=
  ((line.dropWhile isSpace).reverse.dropWhile isSpace).reverse

/-- The data lines, stripped: "Skip lines that are empty after stripping" (R75). -/
def dataLines (lines : List (List Char)) : List (List Char) :=
  (lines.map (fun l => stripSpace (stripComment l))).filter (fun l => !l.isEmpty)

/-- The value of a binary digit. -/
def binaryDigit (c : Char) : Option Nat :=
  if c = '0' then some 0 else if c = '1' then some 1 else none

/-- A base-2 numeral, most significant digit first, continuing from a value. -/
def binaryValue : Nat → List Char → Option Nat
  | v, [] => some v
  | v, c :: cs =>
    match binaryDigit c with
    | some d => binaryValue (2 * v + d) cs
    | none => none

/-- A data line: "1 to 8 characters, each `0` or `1`" (R76), else `InvalidEncoding` (R77). -/
def parseLine (line : List Char) : Except LoadError Byte :=
  if line.isEmpty || 8 < line.length then .error .invalidEncoding
  else
    match binaryValue 0 line with
    | some v => .ok (trunc8 v)
    | none => .error .invalidEncoding

/-- The bytes of the data lines, in order. -/
def parseLines : List (List Char) → Except LoadError (List Byte)
  | [] => .ok []
  | l :: ls => do
    let b ← parseLine l
    let bs ← parseLines ls
    .ok (b :: bs)

/-- The program's bytes. A text with both defects reports `InvalidEncoding` (R80: "a model may report either"; log 23). -/
def parseProgram (lines : List (List Char)) : Except LoadError (List Byte) := do
  let bytes ← parseLines (dataLines lines)
  if 256 < bytes.length then .error .programTooLarge else .ok bytes

/-- "Write parsed bytes sequentially to consecutive Memory addresses" from `a` on (R78). -/
def loadBytes : Nat → List Byte → State → State
  | _, [], s => s
  | a, b :: bs, s => loadBytes (a + 1) bs (s.setCell a (.byte b))

/-- `load(program_lines)` on a fresh machine: the full image or an error, never a partial load (R78, R80). -/
def load (lines : List (List Char)) (s : State) : Except LoadError State := do
  let bytes ← parseProgram lines
  .ok (loadBytes 0 bytes s)

end Sys2Proof.Machine
end

