-- ==== Sys2Proof/Machine/Boot.lean ====
section
/-!
DEFINITION. The host's side of one machine: `load`, then `run()` to the end of the run (spec/10_state.md R32, R33,
spec/40_fetch_decode_dispatch.md R99, R100, spec/70_reset_and_hazards.md R212).
-/

namespace Sys2Proof.Machine

/-- `n` iterations of the execution loop, stopping at the first fault (spec/40_fetch_decode_dispatch.md R90). -/
def iterations : Nat → State → Host.Outcome State Fault Refusal
  | 0, s => .next s
  | n + 1, s =>
    match step s with
    | .next t => iterations n t
    | .fault f => .fault f
    | .refused r => .refused r

/-- What the host learns of a run (spec/10_state.md R33, spec/40_fetch_decode_dispatch.md R99): the outcome, `ACC` if it is returned, and the
`PRNOUT` records emitted so far, since "what was emitted before a fault or a cancellation stays emitted" (spec/10_state.md R26). -/
inductive RunResult where
  /-- `run()` returns `ACC` -/
  | halted (acc : List Byte) (emitted : List (List Char))
  /-- `run()` returns `ACC` as it stands -/
  | cancelled (acc : List Byte) (emitted : List (List Char))
  /-- the run aborts, "no accumulator is returned" -/
  | fault (f : Fault) (emitted : List (List Char))
  /-- the fuel ran out in this state: "treat a non-terminating run as a hang" (R100) -/
  | outOfFuel (s : State)
  /-- a step was refused; no instruction of this model is -/
  | refused (r : Refusal)
  deriving DecidableEq, Repr

/-- `run()` under fuel (R100). An iteration that faults has emitted nothing itself. -/
def run : Nat → State → RunResult
  | fuel, s =>
    match s.status with
    | .halted => .halted s.acc s.prnOut
    | .cancelled => .cancelled s.acc s.prnOut
    | .fault f => .fault f s.prnOut
    | .running =>
      match fuel with
      | 0 => .outOfFuel s
      | n + 1 =>
        match step s with
        | .next t => run n t
        | .fault f => .fault f s.prnOut
        | .refused r => .refused r

/-- `run()` under the embedding code's optional bound: when `MAX_CYCLES` iterations have completed with `status = Running` the machine is
stopped and "the accumulator is returned" (R100; log 25). -/
def runBounded (maxCycles : Option Config.MaxCycles) (fuel : Nat) (s : State) : RunResult :=
  match maxCycles with
  | none => run fuel s
  | some m =>
    if fuel < m.val then run fuel s
    else
      match run m.val s with
      | .outOfFuel t => .cancelled t.acc t.prnOut
      | r => r

/-- Where the host stands with one machine (spec/10_state.md R32; log 26). -/
inductive Lifecycle where
  /-- constructed: the reset state -/
  | fresh (s : State)
  /-- `load` has succeeded -/
  | loaded (s : State)
  /-- `load` has failed: "the instance cannot be run" (spec/30_encoding.md R80) -/
  | loadFailed (e : LoadError)
  /-- `run()` has ended; "the instance is discarded after one run" (spec/00_scope.md R6) -/
  | ended (r : RunResult)
  deriving DecidableEq, Repr

/-- "Reset is construction" (spec/70_reset_and_hazards.md R210), with the given parameters and draws. -/
def construct (params : Config.Params) (draws : List Config.Draw) : Lifecycle :=
  .fresh { State.reset with params := params, draws := draws }

/-- The "explicit reset-to-initial-state operation" an implementation may offer: "exactly the reset state", to "be followed by a load"
(spec/70_reset_and_hazards.md R210). -/
def hostReset (params : Config.Params) (draws : List Config.Draw) : Lifecycle → Lifecycle := fun _ => construct params draws

/-- The host command `load(program_lines)`: once, on a fresh machine (R32). -/
def hostLoad (lines : List (List Char)) : Lifecycle → Except Refusal Lifecycle
  | .fresh s =>
    match load lines s with
    | .ok t => .ok (.loaded t)
    | .error e => .ok (.loadFailed e)
  | .loaded _ => .error .loadedTwice
  | .loadFailed _ => .error .loadedTwice
  | .ended _ => .error .alreadyRun

/-- The host command `run()`: once, after a `load` that succeeded (R32), under the machine's `MAX_CYCLES`. -/
def hostRun (fuel : Nat) : Lifecycle → Except Refusal Lifecycle
  | .loaded s => .ok (.ended (runBounded s.params.maxCycles fuel s))
  | .fresh _ => .error .runBeforeLoad
  | .loadFailed _ => .error .runBeforeLoad
  | .ended _ => .error .alreadyRun

end Sys2Proof.Machine
end

