-- ==== Sys2Proof/Safety.lean ====
section
/-!
DEFINITION. The terms claims are stated in: the invariants of spec/10_state.md R31, what two states share (frames), and what a safe run is.
-/

namespace Sys2Proof

/-- The parameters are admitted ones: `OPMAP` gives every opcode byte at most one meaning (log 1) and no two flags share a bit (log 7). The other
bounds are the types' own. -/
abbrev Config.Params.valid (p : Config.Params) : Prop := OpMap.valid p.opMap ∧ p.flagBits.distinct

end Sys2Proof

namespace Sys2Proof.Machine

/-! ## Invariants (spec/10_state.md R31, R17; log 20) -/

/-- "at most one flag bit is 1" (R31(b)). -/
abbrev Flags.exclusive (f : Flags) : Prop :=
  (f.l && f.g) = false ∧ (f.l && f.e) = false ∧ (f.g && f.e) = false

/-- "every Raw cell holds an integer in 0..256" (R31(d)). -/
def Cell.bounded : Cell → Bool
  | .byte _ => true
  | .raw n => n ≤ 256

/-- R31 (b), (c), (d), that memory keeps its canonical form, and that the parameters are admitted ones. (a) and (e) are the types' own. -/
abbrev State.Inv (s : State) : Prop :=
  s.fl.exclusive ∧ s.pc ≤ 256 ∧ Memory.wf s.mem ∧ (∀ p ∈ s.mem, p.2.bounded = true) ∧ s.params.valid

/-! ## Frames -/

/-- Every register outside the list is unchanged. -/
def RegsExcept (rs : List Reg) (s t : State) : Prop := ∀ r, r ∉ rs → t.reg r = s.reg r

/-- Every cell outside the listed addresses reads as before, tag and payload. -/
def CellsExcept (addrs : List Nat) (s t : State) : Prop := ∀ a, a ∉ addrs → t.cellAt a = s.cellAt a

/-- Nothing was output. -/
def SameOutput (s t : State) : Prop := t.acc = s.acc ∧ t.prnOut = s.prnOut

/-- Interrupts-enabled, the run status, the parameters and the environment's draws are unchanged. -/
def SameControl (s t : State) : Prop :=
  t.ie = s.ie ∧ t.status = s.status ∧ t.params = s.params ∧ t.draws = s.draws ∧ t.polls = s.polls

/-- The frame of an instruction that writes no flag: everything but the listed registers, the listed cells and `pc` is unchanged. -/
def Frame (rs : List Reg) (addrs : List Nat) (s t : State) : Prop :=
  RegsExcept rs s t ∧ CellsExcept addrs s t ∧ t.fl = s.fl ∧ SameOutput s t ∧ SameControl s t

/-! ## Outcomes and runs -/

/-- Change the next state of an outcome, keeping a fault or a refusal as it is. -/
def mapNext (f : State → State) : Host.Outcome State Fault Refusal → Host.Outcome State Fault Refusal
  | .next s => .next (f s)
  | .fault r => .fault r
  | .refused r => .refused r

/-- A safe run: the first `n` iterations meet no fault. -/
def SafeFor (n : Nat) (s : State) : Prop := ∀ k, k ≤ n → ∀ f, iterations k s ≠ .fault f

/-- The bytes at rising addresses from `a` on, all of them in memory and all of them Byte cells. -/
def BytesAt (s : State) : Nat → List Byte → Prop
  | _, [] => True
  | a, b :: bs => a ≤ 255 ∧ s.cellAt a = .byte b ∧ BytesAt s (a + 1) bs

/-- A saved flag word `IRET` accepts: no flag's bit, or one flag's bit alone (log 16). -/
def ValidFlagWord (bits : Config.FlagBits) (w : Nat) : Prop := w = 0 ∨ w = 2 ^ bits.e.val ∨ w = 2 ^ bits.g.val ∨ w = 2 ^ bits.l.val

/-- The nine cells `IRET` pops, from `sp` on, hold what it needs (spec/42_control_flow.md R141): seven Byte cells, a valid flag word, a Raw address. -/
def IretSlotFits (s : State) (sp k : Nat) : Prop :=
  (k < 7 ∧ ∃ b, s.cellAt (sp + k) = .byte b) ∨ (k = 7 ∧ ∃ w, ValidFlagWord s.params.flagBits w ∧ s.cellAt (sp + 7) = .raw w) ∨
    (k = 8 ∧ ∃ n, s.cellAt (sp + 8) = .raw n)

/-- The conditional jumps test a flag (spec/10_state.md R18). -/
def isConditionalJump : Instr → Bool
  | .jeq _ => true
  | .jne _ => true
  | .jgt _ => true
  | .jge _ => true
  | .jlt _ => true
  | .jle _ => true
  | _ => false

end Sys2Proof.Machine
end

