-- ==== Sys2Proof/Certificates/Slice0/Obligations.lean ====
section
/-!
DEFINITION. The statements for the provers. Throughout, `reg a = .ok ra` says that the operand byte `a` names the register `ra`
(spec/30_encoding.md R62); a byte that names none is covered by `Obligations.RegisterOperandsCheckedFirst`.
-/

open Sys2Proof Sys2Proof.Machine

/-! ## Encoding, fetch and dispatch -/

/-- Decoding and encoding are exact inverses, whatever bytes follow (spec/30_encoding.md R60, R61, R64, R68), under every `OPMAP` that gives no two
mnemonics of a namespace one `op_code` value (spec/00_scope.md R5, decision D1; log 1). The operand count in the key is D2 (log 12). -/
def Obligations.DecodeIsInverseOfEncode : Prop :=
  ∀ (m : Config.OpMap) (bytes : List Byte) (i : Instr) (rest : List Byte), OpMap.valid m →
    (decode m bytes = .ok (i, rest) ↔ bytes = encode m i ++ rest)

/-- The four fields of spec/40_fetch_decode_dispatch.md R93 are the opcode byte's bits 7:6, 5, 4 and 3:0. -/
def Obligations.OpcodeFieldsPartitionTheByte : Prop :=
  ∀ b : Byte, operandCount b = (b >>> 6).toNat ∧ isAlu b = b.getLsbD 5 ∧ setsPc b = b.getLsbD 4 ∧ opCode b = (b &&& 0x0F).toNat ∧
    b.toNat = 64 * operandCount b + 32 * (isAlu b).toNat + 16 * (setsPc b).toNat + opCode b

/-- Exactly 34 opcode bytes decode (spec/30_encoding.md R64 to R66), under every valid `OPMAP`; with the default `OPMAP` they are the bytes of R64's
tables (decisions D1, D2; log 1, log 12). Any other byte is rejected once its announced operands are there. -/
def Obligations.ExactlyThirtyFourOpcodesDecode : Prop :=
  ∀ m : Config.OpMap, OpMap.valid m → ∃ legal : List Byte, legal.length = 34 ∧ legal.Nodup ∧
    (m = defaultOpMap → ∀ b, b ∈ legal ↔ b ∈ ([0xA0, 0xA1, 0xA2, 0xA3, 0xA4, 0x65, 0x66, 0xA7, 0xA8, 0x69, 0xAA, 0xAB, 0xAC, 0xAD,
      0x50, 0x11, 0x52, 0x13, 0x54, 0x55, 0x56, 0x57, 0x58, 0x59, 0x5A,
      0x00, 0x01, 0x82, 0x83, 0x84, 0x45, 0x46, 0x47, 0x48] : List Byte)) ∧
    ∀ (opcode : Byte) (operands : List Byte), operandCount opcode ≤ operands.length →
      (opcode ∈ legal → ∃ i, decode m (opcode :: operands) = .ok (i, operands.drop (operandCount opcode)) ∧ i.opcode m = opcode) ∧
      (opcode ∉ legal → decode m (opcode :: operands) = .error (.illegalOpcode opcode))

/-- Words written out from the encodings of spec/41_alu.md, 42_control_flow.md and 43_core.md decode to what they stand for under the default
`OPMAP` (decision D1, log 1). -/
def Obligations.WrittenOutWordsDecode : Prop :=
  decode defaultOpMap [0b10100000, 0b00000011, 0b00000101] = .ok (.add 3 5, []) ∧
  decode defaultOpMap [0b01101001, 0b00000100] = .ok (.not 4, []) ∧
  decode defaultOpMap [0b01010000, 0b00000001] = .ok (.call 1, []) ∧
  decode defaultOpMap [0b00010011] = .ok (.iret, []) ∧
  decode defaultOpMap [0b10000010, 0b00000111, 0b11111111] = .ok (.ldi 7 255, []) ∧
  decode defaultOpMap [0b10000100, 0b00000010, 0b00000000] = .ok (.st 2 0, [])

/-- A step runs the decoded instruction: when the poll leaves the machine running and the bytes at the program counter are an instruction's, the
step is that instruction's meaning, nothing added (spec/40_fetch_decode_dispatch.md R90, R95; the advance of `pc` is inside the meaning). The
encoding is under the machine's own `OPMAP` (decision D1, log 1). -/
def Obligations.StepRunsDecodedInstruction : Prop :=
  ∀ (s s1 : State) (i : Instr), s.status = .running → pollPhase s = .ok s1 → s1.status = .running →
    OpMap.valid s1.params.opMap → BytesAt s1 s1.pc (encode s1.params.opMap i) → step s = exec i s1

/-- The halt check of spec/40_fetch_decode_dispatch.md R92: `pc` above 255 is a `MemoryFault`, a Raw cell halts whatever its payload, a Byte cell
goes on to decode; a Raw cell at `pc` is the only thing that makes a running machine `Halted`, and `run()` then returns `ACC`. -/
def Obligations.RawCellAtPcIsTheOnlyHalt : Prop :=
  ∀ s s1 : State, s.status = .running → pollPhase s = .ok s1 → s1.status = .running →
    (255 < s1.pc → step s = .fault (.memoryFault s1.pc)) ∧
    (∀ n, s1.pc ≤ 255 → s1.cellAt s1.pc = .raw n →
      step s = .next (s1.setStatus .halted) ∧ ∀ fuel, run (fuel + 1) s = .halted s1.acc s1.prnOut) ∧
    (∀ b, s1.pc ≤ 255 → s1.cellAt s1.pc = .byte b → ∀ operands i rest, fetchOperands (operandCount b) (s1.pc + 1) s1 = .ok operands →
      decode s1.params.opMap (b :: operands) = .ok (i, rest) → step s = exec i s1) ∧
    (∀ t, step s = .next t → (t.status = .halted ↔ s1.pc ≤ 255 ∧ ∃ n, s1.cellAt s1.pc = .raw n))

/-- The operand fetch (spec/40_fetch_decode_dispatch.md R94; the `DecodeError` of a Raw operand cell is decision D12, log 11): it answers the Byte
cells in rising order, and the first operand that is out of memory or Raw decides the fault; that fault is the step's, when the poll leaves the machine
running and a Byte cell stands at `pc`, whatever that byte's opcode is (R98(4), decision D29; log 28). -/
def Obligations.OperandFetchReadsBytesInOrder : Prop :=
  (∀ (s : State) (a count : Nat),
    (∀ bytes, fetchOperands count a s = .ok bytes ↔ bytes.length = count ∧ BytesAt s a bytes) ∧
    (∀ before : List Byte, before.length < count → BytesAt s a before →
      (255 < a + before.length → fetchOperands count a s = .error (.memoryFault (a + before.length))) ∧
      (∀ n, a + before.length ≤ 255 → s.cellAt (a + before.length) = .raw n →
        fetchOperands count a s = .error (.decodeError (a + before.length))))) ∧
  (∀ (s s1 : State) (b : Byte) (before : List Byte), s.status = .running → pollPhase s = .ok s1 → s1.status = .running →
    s1.pc ≤ 255 → s1.cellAt s1.pc = .byte b → before.length < operandCount b → BytesAt s1 (s1.pc + 1) before →
    (255 < s1.pc + 1 + before.length → step s = .fault (.memoryFault (s1.pc + 1 + before.length))) ∧
    (∀ n, s1.pc + 1 + before.length ≤ 255 → s1.cellAt (s1.pc + 1 + before.length) = .raw n →
      step s = .fault (.decodeError (s1.pc + 1 + before.length))))

/-- An opcode byte outside the 34 of the machine's `OPMAP` ends the run with `DecodeError(opcode byte)`, after its operands were fetched
(spec/30_encoding.md R66, spec/40_fetch_decode_dispatch.md R95, R98; decisions D1, D2, D29; log 1, log 12, log 28). -/
def Obligations.UnknownOpcodeFaults : Prop :=
  ∀ (s s1 : State) (b : Byte) (operands : List Byte), s.status = .running → pollPhase s = .ok s1 → s1.status = .running →
    s1.pc ≤ 255 → s1.cellAt s1.pc = .byte b → operands.length = operandCount b → BytesAt s1 (s1.pc + 1) operands →
    (∀ i : Instr, i.opcode s1.params.opMap ≠ b) → step s = .fault (.decodeError b.toNat)

/-- Every instruction checks its register operands, A before B, before any effect (spec/30_encoding.md R62; decision D11, log 13): the first operand
byte above 7 is the `DecodeError`'s info. `LDI`'s immediate is not checked (R63). -/
def Obligations.RegisterOperandsCheckedFirst : Prop :=
  ∀ (i : Instr) (s : State) (op : Byte), i.registerOperands.find? (fun b => decide (7 < b.toNat)) = some op →
    exec i s = .fault (.decodeError op.toNat)

/-! ## Memory and the stack primitives -/

/-- The memory unit of spec/20_memory.md R41: an address outside 0..255 is a `MemoryFault` for reads and writes; an address from a register, the
last-key address and every vector slot are in range; a read gives the cell last written there and a write leaves every other cell. -/
def Obligations.MemoryUnitReadsAndWrites : Prop :=
  ∀ (s : State) (a : Nat) (c : Cell),
    (255 < a → memRead a s = .error (.memoryFault a) ∧ memWrite a c s = .error (.memoryFault a)) ∧
    (a ≤ 255 → memRead a s = .ok (s.cellAt a) ∧
      ∃ t, memWrite a c s = .ok t ∧ memRead a t = .ok c ∧ (∀ b, b ≠ a → t.cellAt b = s.cellAt b) ∧ t = { s with mem := t.mem }) ∧
    (∀ v : Byte, memRead v.toNat s = .ok (s.cellAt v.toNat) ∧ memWrite v.toNat c s = .ok (s.setCell v.toNat c)) ∧
    s.params.keyAddr.toNat ≤ 255 ∧ ∀ n, n < 8 → s.params.vectorBase.val + n ≤ 255

/-- `Push(c)` of spec/20_memory.md R56. -/
def Obligations.PushDecrementsThenWrites : Prop :=
  ∀ (s : State) (c : Cell),
    (s.reg .r7 = 0#8 → push c s = .error (.stackFault (-1))) ∧
    (s.reg .r7 ≠ 0#8 → ∃ t, push c s = .ok t ∧ (t.reg .r7).toNat = (s.reg .r7).toNat - 1 ∧ t.cellAt ((s.reg .r7).toNat - 1) = c ∧
      t.pc = s.pc ∧ Frame [.r7] [(s.reg .r7).toNat - 1] s t)

/-- `Pop()` of spec/20_memory.md R57. -/
def Obligations.PopReadsThenIncrements : Prop :=
  ∀ s : State,
    (s.reg .r7 = 255#8 → pop s = .error (.stackFault 256)) ∧
    (s.reg .r7 ≠ 255#8 → ∃ t, pop s = .ok (s.cellAt (s.reg .r7).toNat, t) ∧ (t.reg .r7).toNat = (s.reg .r7).toNat + 1 ∧
      t.pc = s.pc ∧ Frame [.r7] [] s t)

/-- "`PUSH r` immediately followed by `POP r` restores both the stack pointer and register `r`" (spec/95_test_vectors.md W3), `R7` included: with the
orders of decision D16 (log 10) every register comes back. -/
def Obligations.PushThenPopRestores : Prop :=
  ∀ (s : State) (a : Byte) (ra : Reg), reg a = .ok ra → s.reg .r7 ≠ 0#8 →
    ∃ t u, exec (.push a) s = .next t ∧ exec (.pop a) t = .next u ∧ u.pc = s.pc + 4 ∧ Frame [] [(s.reg .r7).toNat - 1] s u

/-- "`CALL addr` followed eventually by `RET` resumes execution at the instruction immediately after the `CALL`" (spec/95_test_vectors.md W4), from
any later state that has the stack pointer and the return cell as the `CALL` left them. -/
def Obligations.CallThenRetResumes : Prop :=
  ∀ (s t u : State) (a : Byte), exec (.call a) s = .next t → u.reg .r7 = t.reg .r7 →
    u.cellAt (u.reg .r7).toNat = t.cellAt (t.reg .r7).toNat →
    ∃ v, exec .ret u = .next v ∧ v.pc = s.pc + 2 ∧ v.reg .r7 = s.reg .r7 ∧ Frame [.r7] [] u v

/-! ## ALU instructions -/

/-- The shape of a two-operand ALU rule: register A takes a value computed from both operands as they were, everything else but `pc` is unchanged. -/
def AluBinaryRule (mk : Byte → Byte → Instr) (result : State → Nat → Nat → Nat) : Prop :=
  ∀ (s : State) (a b : Byte) (ra rb : Reg), reg a = .ok ra → reg b = .ok rb →
    ∃ t, exec (mk a b) s = .next t ∧ (t.reg ra).toNat = result s (s.reg ra).toNat (s.reg rb).toNat ∧ t.pc = s.pc + 3 ∧ Frame [ra] [] s t

/-- The shape of a one-operand ALU rule. -/
def AluUnaryRule (mk : Byte → Instr) (result : Nat → Nat) : Prop :=
  ∀ (s : State) (a : Byte) (ra : Reg), reg a = .ok ra →
    ∃ t, exec (mk a) s = .next t ∧ (t.reg ra).toNat = result (s.reg ra).toNat ∧ t.pc = s.pc + 2 ∧ Frame [ra] [] s t

/-- `ADD A,B` (spec/41_alu.md R111): the sum modulo 256. -/
def Obligations.AddWrapsModulo256 : Prop := AluBinaryRule .add (fun _ x y => (x + y) % 256)

/-- `SUB A,B` (spec/41_alu.md R112): the difference modulo 256, or the product when `SUB_LEGACY_PRODUCT` (decision D14, log 4). -/
def Obligations.SubIsDifferenceOrLegacyProduct : Prop :=
  AluBinaryRule .sub (fun s x y => if s.params.subLegacyProduct then x * y % 256 else (x + (256 - y)) % 256)

/-- `MUL A,B` (spec/41_alu.md R113): the low 8 bits of the product. -/
def Obligations.MulKeepsLowByte : Prop := AluBinaryRule .mul (fun _ x y => x * y % 256)

/-- `DIV A,B` (spec/41_alu.md R114) and `SHR A,B` (R123) compute the same right shift; a count of 8 or more gives 0 (decision D24, log 15). -/
def Obligations.DivAndShrShiftRight : Prop :=
  AluBinaryRule .div (fun _ x y => if 8 ≤ y then 0 else x / 2 ^ y) ∧ AluBinaryRule .shr (fun _ x y => if 8 ≤ y then 0 else x / 2 ^ y)

/-- `SHL A,B` (spec/41_alu.md R122): a count of 8 or more gives 0 (decision D24, log 15). -/
def Obligations.ShlShiftsLeft : Prop := AluBinaryRule .shl (fun _ x y => if 8 ≤ y then 0 else x * 2 ^ y % 256)

/-- `MOD A,B` (spec/41_alu.md R115): the unsigned remainder, and `ArithmeticFault(pc0)` for a zero divisor (decision D13, log 14). -/
def Obligations.ModIsUnsignedRemainder : Prop :=
  ∀ (s : State) (a b : Byte) (ra rb : Reg), reg a = .ok ra → reg b = .ok rb →
    (s.reg rb ≠ 0#8 → ∃ t, exec (.mod a b) s = .next t ∧ (t.reg ra).toNat = (s.reg ra).toNat % (s.reg rb).toNat ∧
      t.pc = s.pc + 3 ∧ Frame [ra] [] s t) ∧
    (s.reg rb = 0#8 → exec (.mod a b) s = .fault (.arithmeticFault s.pc))

/-- `AND`, `OR`, `XOR` (spec/41_alu.md R116 to R118), bit by bit. -/
def Obligations.BitwiseOperationsBitByBit : Prop :=
  ∀ (s : State) (a b : Byte) (ra rb : Reg), reg a = .ok ra → reg b = .ok rb →
    (∃ t, exec (.and a b) s = .next t ∧ (∀ k, (t.reg ra).getLsbD k = ((s.reg ra).getLsbD k && (s.reg rb).getLsbD k)) ∧
      t.pc = s.pc + 3 ∧ Frame [ra] [] s t) ∧
    (∃ t, exec (.or a b) s = .next t ∧ (∀ k, (t.reg ra).getLsbD k = ((s.reg ra).getLsbD k || (s.reg rb).getLsbD k)) ∧
      t.pc = s.pc + 3 ∧ Frame [ra] [] s t) ∧
    (∃ t, exec (.xor a b) s = .next t ∧ (∀ k, (t.reg ra).getLsbD k = ((s.reg ra).getLsbD k != (s.reg rb).getLsbD k)) ∧
      t.pc = s.pc + 3 ∧ Frame [ra] [] s t)

/-- `NOT A` (spec/41_alu.md R119): 255 minus the value. -/
def Obligations.NotIsComplement : Prop := AluUnaryRule .not (fun x => 255 - x)

/-- `INC A` and `DEC A` (spec/41_alu.md R120, R121): modulo 256, no flag written. -/
def Obligations.IncAndDecWrap : Prop :=
  AluUnaryRule .inc (fun x => (x + 1) % 256) ∧ AluUnaryRule .dec (fun x => (x + 255) % 256)

/-- `CMP A,B` (spec/41_alu.md R124): exactly one flag, by the unsigned order; no register, no memory. -/
def Obligations.CmpSetsExactlyOneFlag : Prop :=
  ∀ (s : State) (a b : Byte) (ra rb : Reg), reg a = .ok ra → reg b = .ok rb →
    ∃ t, exec (.cmp a b) s = .next t ∧
      t.fl.l = decide ((s.reg ra).toNat < (s.reg rb).toNat) ∧
      t.fl.g = decide ((s.reg rb).toNat < (s.reg ra).toNat) ∧
      t.fl.e = decide ((s.reg ra).toNat = (s.reg rb).toNat) ∧
      t.fl.exclusive ∧ t.pc = s.pc + 3 ∧
      RegsExcept [] s t ∧ CellsExcept [] s t ∧ SameOutput s t ∧ SameControl s t

/-! ## Control-flow instructions -/

/-- The shape of a jump's rule: taken to the register's value, else past the two bytes; everything else is unchanged. -/
def JumpRule (mk : Byte → Instr) (taken : Flags → Bool) : Prop :=
  ∀ (s : State) (a : Byte) (ra : Reg), reg a = .ok ra →
    ∃ t, exec (mk a) s = .next t ∧ t.pc = (if taken s.fl then (s.reg ra).toNat else s.pc + 2) ∧ Frame [] [] s t

/-- `JMP A` (spec/42_control_flow.md R131). -/
def Obligations.JmpGoesToRegister : Prop := JumpRule .jmp (fun _ => true)

/-- The six conditional jumps (spec/42_control_flow.md R132 to R137). -/
def Obligations.ConditionalJumpsTestTheirFlags : Prop :=
  JumpRule .jeq (fun f => f.e) ∧ JumpRule .jne (fun f => !f.e) ∧ JumpRule .jgt (fun f => f.g) ∧
  JumpRule .jge (fun f => f.g || f.e) ∧ JumpRule .jlt (fun f => f.l) ∧ JumpRule .jle (fun f => f.l || f.e)

/-- `CALL A` (spec/42_control_flow.md R138): the Raw return address below the old stack pointer, the target read after the push (decision D16,
log 10); `StackFault` at `SP = 0`. -/
def Obligations.CallPushesReturnAddress : Prop :=
  ∀ (s : State) (a : Byte) (ra : Reg), reg a = .ok ra →
    (s.reg .r7 ≠ 0#8 → ∃ t, exec (.call a) s = .next t ∧ t.cellAt ((s.reg .r7).toNat - 1) = .raw (s.pc + 2) ∧
      (t.reg .r7).toNat = (s.reg .r7).toNat - 1 ∧
      t.pc = (if ra = .r7 then (s.reg .r7).toNat - 1 else (s.reg ra).toNat) ∧ Frame [.r7] [(s.reg .r7).toNat - 1] s t) ∧
    (s.reg .r7 = 0#8 → exec (.call a) s = .fault (.stackFault (-1)))

/-- `RET` (spec/42_control_flow.md R139): pops a Raw return address; `StackFault` at `SP = 255` before the tag is looked at, `TagFault` on a Byte
cell (decision D12, log 11). -/
def Obligations.RetPopsReturnAddress : Prop :=
  ∀ s : State,
    (∀ n, s.reg .r7 ≠ 255#8 → s.cellAt (s.reg .r7).toNat = .raw n →
      ∃ t, exec .ret s = .next t ∧ t.pc = n ∧ (t.reg .r7).toNat = (s.reg .r7).toNat + 1 ∧ Frame [.r7] [] s t) ∧
    (s.reg .r7 = 255#8 → exec .ret s = .fault (.stackFault 256)) ∧
    (∀ b, s.reg .r7 ≠ 255#8 → s.cellAt (s.reg .r7).toNat = .byte b → exec .ret s = .fault (.tagFault (s.reg .r7).toNat))

/-- `INT A` (spec/42_control_flow.md R140; decision D10, log 8): sets `IS` bit `x[A]` if there is such a line, and only moves `pc` otherwise. -/
def Obligations.IntMakesLinePending : Prop :=
  ∀ (s : State) (a : Byte) (ra : Reg), reg a = .ok ra →
    ∃ t, exec (.int a) s = .next t ∧ t.pc = s.pc + 2 ∧
      (∀ k, k < 8 → (t.reg .r6).getLsbD k = ((s.reg .r6).getLsbD k || decide (k = (s.reg ra).toNat))) ∧ Frame [.r6] [] s t

/-- `IRET` (spec/42_control_flow.md R141; decisions D12, D15, D25; log 9, log 11, log 16): pops `x[6]` down to `x[0]`, the flags and `pc`, and enables
interrupts; the first slot that does not fit decides the fault, the bound of the stack pointer before the tag. The flag word has the flags at the
machine's flag bit positions, by default 4*L + 2*G + E (spec/10_state.md R17, decision D6; log 7). -/
def Obligations.IretRestoresFrame : Prop :=
  ∀ s : State,
    ((s.reg .r7).toNat ≤ 246 → s.params.flagBits.distinct → ∀ (b : Fin 7 → Byte) (f : Flags) (w n : Nat), f.exclusive →
      (∀ k : Fin 7, s.cellAt ((s.reg .r7).toNat + k.val) = .byte (b k)) →
      w = f.l.toNat * 2 ^ s.params.flagBits.l.val + f.g.toNat * 2 ^ s.params.flagBits.g.val + f.e.toNat * 2 ^ s.params.flagBits.e.val →
      s.cellAt ((s.reg .r7).toNat + 7) = .raw w →
      s.cellAt ((s.reg .r7).toNat + 8) = .raw n →
      (s.params.flagBits = defaultFlagBits → w = 4 * f.l.toNat + 2 * f.g.toNat + f.e.toNat) ∧
      ∃ t, exec .iret s = .next t ∧ t.pc = n ∧ t.fl = f ∧ t.ie = true ∧ (t.reg .r7).toNat = (s.reg .r7).toNat + 9 ∧
        t.reg .r6 = b 0 ∧ t.reg .r5 = b 1 ∧ t.reg .r4 = b 2 ∧ t.reg .r3 = b 3 ∧ t.reg .r2 = b 4 ∧ t.reg .r1 = b 5 ∧ t.reg .r0 = b 6 ∧
        CellsExcept [] s t ∧ SameOutput s t ∧ t.status = s.status ∧ t.params = s.params ∧ t.draws = s.draws ∧ t.polls = s.polls) ∧
    (∀ k, k < 9 → (∀ j, j < k → IretSlotFits s (s.reg .r7).toNat j) →
      ((s.reg .r7).toNat + k = 255 → exec .iret s = .fault (.stackFault 256)) ∧
      ((s.reg .r7).toNat + k < 255 → ¬ IretSlotFits s (s.reg .r7).toNat k → exec .iret s = .fault (.tagFault ((s.reg .r7).toNat + k))))

/-! ## Core instructions -/

/-- `NOP` and `HLT` (spec/43_core.md R151, R152): nothing but `pc + 1`; `HLT` does not stop the machine. -/
def Obligations.NopAndHltOnlyAdvance : Prop :=
  ∀ s : State, ∃ t, exec .nop s = .next t ∧ exec .hlt s = .next t ∧ t.pc = s.pc + 1 ∧ t.status = s.status ∧ Frame [] [] s t

/-- `LDI A,imm` (spec/43_core.md R153): the byte itself, any value. -/
def Obligations.LdiLoadsImmediate : Prop :=
  ∀ (s : State) (a imm : Byte) (ra : Reg), reg a = .ok ra →
    ∃ t, exec (.ldi a imm) s = .next t ∧ t.reg ra = imm ∧ t.pc = s.pc + 3 ∧ Frame [ra] [] s t

/-- `LD A,B` (spec/43_core.md R154): the Byte at the address in B; `TagFault` on a Raw cell (decision D12, log 11). -/
def Obligations.LdLoadsAddressedByte : Prop :=
  ∀ (s : State) (a b : Byte) (ra rb : Reg), reg a = .ok ra → reg b = .ok rb →
    (∀ v, s.cellAt (s.reg rb).toNat = .byte v →
      ∃ t, exec (.ld a b) s = .next t ∧ t.reg ra = v ∧ t.pc = s.pc + 3 ∧ Frame [ra] [] s t) ∧
    (∀ n, s.cellAt (s.reg rb).toNat = .raw n → exec (.ld a b) s = .fault (.tagFault (s.reg rb).toNat))

/-- `ST A,B` (spec/43_core.md R155): B's value to the address in A, as a Byte cell whatever was there. -/
def Obligations.StStoresToAddress : Prop :=
  ∀ (s : State) (a b : Byte) (ra rb : Reg), reg a = .ok ra → reg b = .ok rb →
    ∃ t, exec (.st a b) s = .next t ∧ t.cellAt (s.reg ra).toNat = .byte (s.reg rb) ∧ t.pc = s.pc + 3 ∧ Frame [] [(s.reg ra).toNat] s t

/-- `PUSH A` (spec/43_core.md R156): the register read after the decrement (decision D16, log 10); `StackFault` at `SP = 0`. -/
def Obligations.PushStoresRegister : Prop :=
  ∀ (s : State) (a : Byte) (ra : Reg), reg a = .ok ra →
    (s.reg .r7 ≠ 0#8 → ∃ t, exec (.push a) s = .next t ∧ (t.reg .r7).toNat = (s.reg .r7).toNat - 1 ∧
      t.cellAt ((s.reg .r7).toNat - 1) = .byte (if ra = .r7 then s.reg .r7 - 1#8 else s.reg ra) ∧
      t.pc = s.pc + 2 ∧ Frame [.r7] [(s.reg .r7).toNat - 1] s t) ∧
    (s.reg .r7 = 0#8 → exec (.push a) s = .fault (.stackFault (-1)))

/-- `POP A` (spec/43_core.md R157): tag check, register write, then the increment of the stack pointer as just written (decision D16, log 10), with
`TagFault` before `StackFault` (decision D12, log 11). -/
def Obligations.PopLoadsRegister : Prop :=
  ∀ (s : State) (a : Byte) (ra : Reg), reg a = .ok ra →
    (∀ v, s.cellAt (s.reg .r7).toNat = .byte v →
      (∀ sp : Byte, sp = (if ra = .r7 then v else s.reg .r7) →
        (sp ≠ 255#8 → ∃ t, exec (.pop a) s = .next t ∧ (t.reg .r7).toNat = sp.toNat + 1 ∧ (ra ≠ .r7 → t.reg ra = v) ∧
          t.pc = s.pc + 2 ∧ Frame [ra, .r7] [] s t) ∧
        (sp = 255#8 → exec (.pop a) s = .fault (.stackFault 256)))) ∧
    (∀ n, s.cellAt (s.reg .r7).toNat = .raw n → exec (.pop a) s = .fault (.tagFault (s.reg .r7).toNat))

/-- `PRN A` (spec/43_core.md R158; decision D19, log 22): one record, the value's decimal numeral: digits 0 to 9, most significant first, no leading
zero but for the one digit of 0. The accumulator is not written. -/
def Obligations.PrnEmitsDecimalNumeral : Prop :=
  ∀ (s : State) (a : Byte) (ra : Reg), reg a = .ok ra →
    ∃ t digits, exec (.prn a) s = .next t ∧ t.prnOut = s.prnOut ++ [digits] ∧ t.acc = s.acc ∧
      digits.foldl (fun n c => 10 * n + (c.toNat - 48)) 0 = (s.reg ra).toNat ∧
      (∀ c ∈ digits, 48 ≤ c.toNat ∧ c.toNat ≤ 57) ∧ digits ≠ [] ∧ (digits.head? = some '0' → digits = ['0']) ∧
      t.pc = s.pc + 2 ∧ RegsExcept [] s t ∧ CellsExcept [] s t ∧ t.fl = s.fl ∧ SameControl s t

/-- `PRA A` (spec/43_core.md R159; decision D19, log 22): one code point, the register's value, at the end of the accumulator. -/
def Obligations.PraAppendsCharacter : Prop :=
  ∀ (s : State) (a : Byte) (ra : Reg), reg a = .ok ra →
    ∃ t, exec (.pra a) s = .next t ∧ t.acc = s.acc ++ [s.reg ra] ∧ t.prnOut = s.prnOut ∧
      t.pc = s.pc + 2 ∧ RegsExcept [] s t ∧ CellsExcept [] s t ∧ t.fl = s.fl ∧ SameControl s t

/-! ## The poll, the interrupt service, the return -/

/-- While `IE` is false the whole poll is skipped (spec/60_exceptions.md R182): the step does not depend on the environment's draws, and leaves them
unsampled. -/
def Obligations.NoPollWhileDisabled : Prop :=
  ∀ (s : State) (d : List Config.Draw) (n : Nat), s.ie = false →
    pollPhase s = .ok s ∧
    step { s with draws := d, polls := n } = mapNext (fun t => { t with draws := d, polls := n }) (step s) ∧
    (∀ t, step s = .next t → t.draws = s.draws ∧ t.polls = s.polls)

/-- The cancel sentinel ends the run inside the poll (spec/60_exceptions.md R185; decision D26, log 18), whatever else is pending: no service, no
instruction, `ACC` as it stands. -/
def Obligations.CancelKeyEndsRun : Prop :=
  ∀ s : State, s.status = .running → s.ie = true → s.draw.key = some s.params.cancelKey →
    ∃ t, step s = .next t ∧ t.status = .cancelled ∧ t.pc = s.pc ∧ RegsExcept [.r6] s t ∧ CellsExcept [] s t ∧ t.fl = s.fl ∧
      SameOutput s t ∧ t.ie = true

/-- What a poll records before it services anything (spec/60_exceptions.md R182 to R184): a timer fire sets `IS` bit 0; a key other than the sentinel
sets `IS` bit 1 and is stored as a Byte at `KEY_ADDR`, whatever `IM` holds. The poll then services from exactly that state. -/
def Obligations.PollRecordsTimerAndKey : Prop :=
  ∀ s : State, s.ie = true → s.draw.key ≠ some s.params.cancelKey →
    ∃ t, pollPhase s = serviceActive t ∧
      (∀ k, k < 8 → (t.reg .r6).getLsbD k =
        ((s.reg .r6).getLsbD k || (decide (k = 0) && s.draw.tick) || (decide (k = 1) && s.draw.key.isSome))) ∧
      (∀ c, s.draw.key = some c → t.cellAt s.params.keyAddr.toNat = .byte c ∧ CellsExcept [s.params.keyAddr.toNat] s t) ∧
      (s.draw.key = none → CellsExcept [] s t) ∧
      RegsExcept [.r6] s t ∧ t.pc = s.pc ∧ t.fl = s.fl ∧ SameOutput s t ∧ t.ie = true ∧ t.status = s.status ∧ t.params = s.params ∧
      t.draws = s.draws.tail ∧ t.polls = s.polls + 1

/-- "If nonzero, service the lowest-numbered active line" (spec/60_exceptions.md R186): a line is serviced exactly when it is pending and enabled and
no lower-numbered line is; with none active nothing happens; the other pending lines stay pending in the saved copy of `IS`, and the service leaves
`IE` false; a timer fire and a key at one poll set both bits before the active lines are computed. That the saved copy of `IS` stands at the old stack
pointer minus 9 is the push order of R187 and the frame of R189, decision D15 (log 9). -/
def Obligations.LowestActiveLineIsServiced : Prop :=
  ∀ s : State,
    (∀ n, n < 8 → (s.reg .r5).getLsbD n = true → (s.reg .r6).getLsbD n = true →
      (∀ m, m < n → ((s.reg .r5).getLsbD m && (s.reg .r6).getLsbD m) = false) →
      serviceActive s = service n s ∧
      ∀ t, service n s = .ok t → t.ie = false ∧
        ∃ saved, t.cellAt ((s.reg .r7).toNat - 9) = .byte saved ∧
          ∀ k, k < 8 → saved.getLsbD k = ((s.reg .r6).getLsbD k && decide (k ≠ n))) ∧
    ((∀ n, n < 8 → ((s.reg .r5).getLsbD n && (s.reg .r6).getLsbD n) = false) → serviceActive s = .ok s) ∧
    (∀ c, s.ie = true → s.draw.tick = true → s.draw.key = some c → c ≠ s.params.cancelKey →
      ∃ t, pollPhase s = serviceActive t ∧ (t.reg .r6).getLsbD 0 = true ∧ (t.reg .r6).getLsbD 1 = true ∧ t.reg .r5 = s.reg .r5)

/-- A fault of the poll ends the iteration before the halt check, the fetch and the instruction at `pc` (spec/40_fetch_decode_dispatch.md R98(2),
spec/60_exceptions.md R187, R188; decision D29, log 28). At a poll that draws nothing, the service of the lowest active line faults so with fewer than
nine cells below the stack pointer; and, since the vector slot must be a Byte (decisions D7, D12, D28; log 4, log 11, log 17), where that slot is a Raw
cell outside the frame, or is one of the two Raw cells the service itself pushes. -/
def Obligations.PollFaultEndsTheIteration : Prop :=
  ∀ s : State, s.status = .running →
    (∀ f, pollPhase s = .error f → step s = .fault f) ∧
    (∀ n, n < 8 → s.ie = true → s.draw = Config.Draw.quiet → (s.reg .r5).getLsbD n = true → (s.reg .r6).getLsbD n = true →
      (∀ m, m < n → ((s.reg .r5).getLsbD m && (s.reg .r6).getLsbD m) = false) →
      ((s.reg .r7).toNat < 9 → step s = .fault (.stackFault (-1))) ∧
      (9 ≤ (s.reg .r7).toNat →
        (∀ v, (s.params.vectorBase.val + n < (s.reg .r7).toNat - 9 ∨ (s.reg .r7).toNat ≤ s.params.vectorBase.val + n) →
          s.cellAt (s.params.vectorBase.val + n) = .raw v → step s = .fault (.tagFault (s.params.vectorBase.val + n))) ∧
        (∀ k, k = 1 ∨ k = 2 → s.params.vectorBase.val + n = (s.reg .r7).toNat - k →
          step s = .fault (.tagFault (s.params.vectorBase.val + n)))))

/-- "With IM = 0, no interrupt is ever serviced regardless of IS, elapsed time, or keyboard activity" (spec/10_state.md R20, spec/60_exceptions.md
R181): the poll then never faults and never touches `pc`, `IE`, the stack pointer or any register but `IS`. -/
def Obligations.NoServiceWhileMaskIsZero : Prop :=
  ∀ s : State, s.reg .r5 = 0#8 →
    ∃ t, pollPhase s = .ok t ∧ t.pc = s.pc ∧ t.ie = s.ie ∧ t.fl = s.fl ∧ RegsExcept [.r6] s t ∧
      CellsExcept [s.params.keyAddr.toNat] s t ∧ SameOutput s t

/-- `Service(n)` (spec/60_exceptions.md R187, R189; decisions D6, D7, D12, D15, D28; log 4, log 7, log 9, log 11, log 17): the nine-cell frame below the
old stack pointer, `x[0]` to `x[6]` zero, `IE` false, flags kept, `pc` from the vector slot as it reads after the pushes; `StackFault` with fewer than
nine cells. The flag word has the flags at the machine's flag bit positions, by default 4*L + 2*G + E. -/
def Obligations.ServiceSavesFrame : Prop :=
  ∀ (s : State) (n : Nat), n < 8 →
    ((s.reg .r7).toNat < 9 → service n s = .error (.stackFault (-1))) ∧
    (9 ≤ (s.reg .r7).toNat → ∃ p : State,
      p.cellAt ((s.reg .r7).toNat - 1) = .raw s.pc ∧
      (∃ w, p.cellAt ((s.reg .r7).toNat - 2) = .raw w ∧
        w = s.fl.l.toNat * 2 ^ s.params.flagBits.l.val + s.fl.g.toNat * 2 ^ s.params.flagBits.g.val + s.fl.e.toNat * 2 ^ s.params.flagBits.e.val ∧
        (s.params.flagBits = defaultFlagBits → w = 4 * s.fl.l.toNat + 2 * s.fl.g.toNat + s.fl.e.toNat)) ∧
      p.cellAt ((s.reg .r7).toNat - 3) = .byte (s.reg .r0) ∧
      p.cellAt ((s.reg .r7).toNat - 4) = .byte (s.reg .r1) ∧
      p.cellAt ((s.reg .r7).toNat - 5) = .byte (s.reg .r2) ∧
      p.cellAt ((s.reg .r7).toNat - 6) = .byte (s.reg .r3) ∧
      p.cellAt ((s.reg .r7).toNat - 7) = .byte (s.reg .r4) ∧
      p.cellAt ((s.reg .r7).toNat - 8) = .byte (s.reg .r5) ∧
      (∃ is, p.cellAt ((s.reg .r7).toNat - 9) = .byte is ∧ ∀ k, k < 8 → is.getLsbD k = ((s.reg .r6).getLsbD k && decide (k ≠ n))) ∧
      (∀ a, (a < (s.reg .r7).toNat - 9 ∨ (s.reg .r7).toNat ≤ a) → p.cellAt a = s.cellAt a) ∧
      (∀ r, r ≠ .r7 → p.reg r = 0#8) ∧ (p.reg .r7).toNat = (s.reg .r7).toNat - 9 ∧
      p.ie = false ∧ p.fl = s.fl ∧ SameOutput s p ∧ p.status = s.status ∧ p.params = s.params ∧ p.draws = s.draws ∧ p.polls = s.polls ∧
      (∀ h, p.cellAt (s.params.vectorBase.val + n) = .byte h → service n s = .ok (p.setPc h.toNat)) ∧
      (∀ v, p.cellAt (s.params.vectorBase.val + n) = .raw v → service n s = .error (.tagFault (s.params.vectorBase.val + n))))

/-- The whole-machine property of spec/60_exceptions.md R193 and spec/95_test_vectors.md W6: from any later state that still has the parameters, the
stack pointer and the nine frame cells as the service left them, `IRET` restores registers, flags and program counter as they were at the service, with the serviced
line's bit of `IS` cleared, whatever the handler wrote to the registers. The flags must be exclusive and their bit positions distinct, as
`Obligations.StepKeepsInvariant` keeps them (decision D25, log 16). The flag word is that of decision D6 (log 7) and the order of the frame that of
decision D15 (log 9). -/
def Obligations.IretUndoesService : Prop :=
  ∀ (s t u : State) (n : Nat), n < 8 → s.fl.exclusive → s.params.flagBits.distinct → service n s = .ok t → u.params = t.params →
    u.reg .r7 = t.reg .r7 → (∀ k, k < 9 → u.cellAt ((t.reg .r7).toNat + k) = t.cellAt ((t.reg .r7).toNat + k)) →
    ∃ v, exec .iret u = .next v ∧ v.pc = s.pc ∧ v.fl = s.fl ∧ v.ie = true ∧ (∀ r, r ≠ .r6 → v.reg r = s.reg r) ∧
      (∀ k, k < 8 → (v.reg .r6).getLsbD k = ((s.reg .r6).getLsbD k && decide (k ≠ n))) ∧ CellsExcept [] u v ∧ SameOutput u v

/-! ## Rules over every instruction -/

/-- Who writes and reads `FL` (spec/10_state.md R18): written by `CMP` and `IRET` only; read by the six conditional jumps and the interrupt service only. -/
def Obligations.OnlyCmpAndIretWriteFlags : Prop :=
  (∀ (i : Instr) (s t : State), exec i s = .next t → (∀ a b, i ≠ .cmp a b) → i ≠ .iret → t.fl = s.fl) ∧
  (∀ s t : State, pollPhase s = .ok t → t.fl = s.fl) ∧
  (∀ (i : Instr) (s : State) (f : Flags), isConditionalJump i = false → (∀ a b, i ≠ .cmp a b) → i ≠ .iret →
    exec i (s.setFlags f) = mapNext (fun t => t.setFlags f) (exec i s)) ∧
  (∀ (i : Instr) (s : State) (f : Flags), ((∃ a b, i = .cmp a b) ∨ i = .iret) → exec i (s.setFlags f) = exec i s)

/-- Who writes and reads `IE` (spec/10_state.md R19): it starts true, the service sets it false, `IRET` sets it true whether or not a service preceded,
no instruction reads it, nothing else writes it, and while it is false there is no poll. -/
def Obligations.OnlyServiceAndIretWriteIe : Prop :=
  State.reset.ie = true ∧
  (∀ s : State, s.ie = false → pollPhase s = .ok s) ∧
  (∀ (i : Instr) (s t : State), exec i s = .next t → t.ie = (if i = .iret then true else s.ie)) ∧
  (∀ (n : Nat) (s t : State), n < 8 → service n s = .ok t → t.ie = false) ∧
  (∀ s t : State, pollPhase s = .ok t → t.ie = s.ie ∨ (s.ie = true ∧ t.ie = false ∧ ∃ u n, n < 8 ∧ serviceActive u = service n u ∧ service n u = .ok t)) ∧
  (∀ (i : Instr) (s : State) (v : Bool), i ≠ .iret → exec i (s.setIe v) = mapNext (fun t => t.setIe v) (exec i s)) ∧
  (∀ (s : State) (v : Bool), exec .iret (s.setIe v) = exec .iret s)

/-- Output is append-only over every step, only `PRA` writes `ACC` and only `PRN` writes `PRNOUT` (spec/10_state.md R25, R26; decision D19, log 22);
no step writes a parameter (spec/00_scope.md R5, log 4). -/
def Obligations.OutputOnlyGrowsAndParamsStay : Prop :=
  (∀ s t : State, step s = .next t → s.acc <+: t.acc ∧ s.prnOut <+: t.prnOut ∧ t.params = s.params) ∧
  (∀ (i : Instr) (s t : State), exec i s = .next t → (∀ a, i ≠ .pra a) → t.acc = s.acc) ∧
  (∀ (i : Instr) (s t : State), exec i s = .next t → (∀ a, i ≠ .prn a) → t.prnOut = s.prnOut)

/-- Of the instructions only `CALL` makes a cell Raw, and only the cell of its return address (spec/20_memory.md R43; the Raw cells of reset are
decision D3, log 6). -/
def Obligations.OnlyCallWritesRawCells : Prop :=
  ∀ (i : Instr) (s t : State) (a n : Nat), exec i s = .next t → t.cellAt a = .raw n → s.cellAt a ≠ .raw n →
    (∃ op, i = .call op) ∧ a = (t.reg .r7).toNat ∧ n = s.pc + 2

/-- An instruction with `sets_pc = 0` advances `pc` past its opcode and operands, not reduced modulo 256 (spec/40_fetch_decode_dispatch.md R96). Its
opcode byte is that of any `OPMAP` (decision D1, log 1): neither field read here depends on the `op_code` value. -/
def Obligations.SequentialInstructionsAdvancePc : Prop :=
  ∀ (m : Config.OpMap) (i : Instr) (s t : State), setsPc (i.opcode m) = false → exec i s = .next t → t.pc = s.pc + 1 + operandCount (i.opcode m)

/-- Which instructions can raise which fault (spec/60_exceptions.md R171 to R175): no instruction's own accesses raise `MemoryFault`, `ArithmeticFault`
is `MOD`'s alone, `StackFault` the stack's, `TagFault` that of `LD`, `POP`, `RET` and `IRET` (decisions D12, D13, D25; log 11, log 14, log 16), and
`DecodeError` comes only from a register operand above 7 (D11, log 13). -/
def Obligations.FaultsComeFromTheirInstructions : Prop :=
  ∀ (i : Instr) (s : State) (f : Fault), exec i s = .fault f →
    match f with
    | .memoryFault _ => False
    | .arithmeticFault p => p = s.pc ∧ ∃ a b, i = .mod a b
    | .stackFault v =>
      (v = -1 ∧ s.reg .r7 = 0#8 ∧ ((∃ a, i = .push a) ∨ (∃ a, i = .call a))) ∨
      (v = 256 ∧ ((∃ a, i = .pop a) ∨ i = .ret ∨ i = .iret))
    | .tagFault _ => (∃ a b, i = .ld a b) ∨ (∃ a, i = .pop a) ∨ i = .ret ∨ i = .iret
    | .decodeError n => i.wellFormed = false ∧ ∃ op ∈ i.registerOperands, 7 < op.toNat ∧ n = op.toNat

/-- No step of this machine is refused: every instruction has a meaning (spec/30_encoding.md R64, spec/40_fetch_decode_dispatch.md R95), and every
state steps or faults by name (R99). For a state whose run has ended the spec gives no further step (spec/10_state.md R29); that such a state steps to
itself or answers its fault is the model's choice (log 21). -/
def Obligations.NoStepIsRefused : Prop := ∀ s : State, ∃ o : Except Fault State, step s = finish o

/-! ## Invariants and reset -/

/-- The invariants of spec/10_state.md R31 and R17, the canonical form of memory (log 20) and the admitted parameters (spec/00_scope.md R5; log 1, log 7)
are kept by every step from every state that has them, whatever the draws. That `IRET` keeps the flags exclusive is decision D25 (log 16). -/
def Obligations.StepKeepsInvariant : Prop := ∀ s t : State, s.Inv → step s = .next t → t.Inv

/-- The invariants (spec/10_state.md R31) hold at reset, and after the load of any program. That they do rests on the reset values of decisions D3, D5
(log 5, log 6) and on the default parameters (decisions D1, D6; log 1, log 4, log 7). -/
def Obligations.ResetHasInvariant : Prop :=
  State.reset.Inv ∧ ∀ (lines : List (List Char)) (t : State), load lines State.reset = .ok t → t.Inv

/-- Reset (spec/10_state.md R30, spec/70_reset_and_hazards.md R211). The source states `x[7]`, `pc`, `IE` and `ACC`; the zero registers, the clear flags
and the Raw cells are decisions D3 to D5 (log 5, log 6). Nothing is said of the model's own fields. -/
def Obligations.ResetValues : Prop :=
  State.reset.reg .r7 = 0xF4 ∧ State.reset.pc = 0 ∧ State.reset.ie = true ∧ State.reset.acc = [] ∧ State.reset.prnOut = [] ∧
  State.reset.status = .running ∧ (∀ r, r ≠ .r7 → State.reset.reg r = 0) ∧ State.reset.fl = { l := false, g := false, e := false } ∧
  ∀ a, State.reset.cellAt a = .raw 0

/-! ## The loader -/

/-- The loader places the byte of the i-th data line at address i and writes nothing else (spec/30_encoding.md R78). -/
def Obligations.LoaderPlacesBytesFromZero : Prop :=
  ∀ (lines : List (List Char)) (bytes : List Byte) (s : State), parseProgram lines = .ok bytes →
    ∃ t, load lines s = .ok t ∧ (∀ k (h : k < bytes.length), t.cellAt k = .byte bytes[k]) ∧
      (∀ a, bytes.length ≤ a → t.cellAt a = s.cellAt a) ∧ t = { s with mem := t.mem } ∧ bytes.length ≤ 256 ∧
      bytes.length = (dataLines lines).length ∧ ∀ k (h : k < bytes.length), parseLine ((dataLines lines).getD k []) = .ok bytes[k]

/-- What the loader accepts (spec/30_encoding.md R76, R77, R79; decision D21, log 23): every data line is 1 to 8 binary digits, read most significant
first, and there are at most 256 of them; else `InvalidEncoding`, else `ProgramTooLarge`. -/
def Obligations.LoaderAcceptsBinaryLines : Prop :=
  ∀ lines : List (List Char),
    let valid := fun l : List Char => l ≠ [] ∧ l.length ≤ 8 ∧ ∀ c ∈ l, c = '0' ∨ c = '1'
    ((∀ l ∈ dataLines lines, valid l) → (dataLines lines).length ≤ 256 →
      parseProgram lines = .ok ((dataLines lines).map (fun l => trunc8 (l.foldl (fun v c => 2 * v + (if c = '1' then 1 else 0)) 0)))) ∧
    ((∀ l ∈ dataLines lines, valid l) → 256 < (dataLines lines).length → parseProgram lines = .error .programTooLarge) ∧
    ((∃ l ∈ dataLines lines, ¬ valid l) → parseProgram lines = .error .invalidEncoding)

/-! ## The run -/

/-- What `run()` answers (spec/40_fetch_decode_dispatch.md R99, spec/10_state.md R26, R33): `Halted` and `Cancelled` return `ACC` as it stands in the
state that ended the run; a fault returns no accumulator; the `PRNOUT` records emitted before the end stay; the answer is that of the first iteration
that ends the run, whatever fuel is left (R100). The answer at `MAX_CYCLES`, "a positive count" (spec/00_scope.md R5), is decision D23 (log 25). -/
def Obligations.RunAnswersAsItsIterationsEnd : Prop :=
  ∀ (s : State) (fuel : Nat), s.status = .running →
    (∀ acc emitted, run fuel s = .halted acc emitted ↔
      ∃ k t, k ≤ fuel ∧ iterations k s = .next t ∧ t.status = .halted ∧ t.acc = acc ∧ t.prnOut = emitted) ∧
    (∀ acc emitted, run fuel s = .cancelled acc emitted ↔
      ∃ k t, k ≤ fuel ∧ iterations k s = .next t ∧ t.status = .cancelled ∧ t.acc = acc ∧ t.prnOut = emitted) ∧
    (∀ f emitted, run fuel s = .fault f emitted ↔
      ∃ k t, k < fuel ∧ iterations k s = .next t ∧ step t = .fault f ∧ t.prnOut = emitted) ∧
    (∀ t, run fuel s = .outOfFuel t ↔ iterations fuel s = .next t ∧ t.status = .running) ∧
    (SafeFor fuel s ↔ ∀ f emitted, run fuel s ≠ .fault f emitted) ∧
    runBounded none fuel s = run fuel s ∧
    (∀ (m : Config.MaxCycles) (t : State), m.val ≤ fuel → iterations m.val s = .next t → t.status = .running →
      runBounded (some m) fuel s = .cancelled t.acc t.prnOut)
end

