-- ==== Sys2Proof/Laws/Decode.lean ====
section
/-!
SUPPORT. What the opcode byte's fields and the lookup can do, said once each.
-/

namespace Sys2Proof

/-- An opcode byte made of four fields reads back as those fields. -/
theorem opcodeByte_fields (count : Nat) (h : count < 4) (alu sets : Bool) (code : Fin 16) :
    operandCount (opcodeByte count alu sets code) = count ∧ keyOf (opcodeByte count alu sets code) = (alu, sets, code.val) := by
  have all : ∀ (c : Fin 4) (k : Fin 16), operandCount (opcodeByte c.val alu sets k) = c.val ∧ keyOf (opcodeByte c.val alu sets k) = (alu, sets, k.val) := by
    cases alu <;> cases sets <;> decide
  exact all ⟨count, h⟩ code

/-- An opcode byte is made of its four fields. -/
theorem opcodeByte_of_fields (b : Byte) (code : Fin 16) (h : opCode b = code.val) : b = opcodeByte (operandCount b) (isAlu b) (setsPc b) code := by
  have all : ∀ b : Byte, b = trunc8 (64 * operandCount b + 32 * (isAlu b).toNat + 16 * (setsPc b).toNat + opCode b) := by decide
  rw [opcodeByte, ← h]
  exact all b

theorem Instr.operandBytes_length_lt (i : Instr) : i.operandBytes.length < 4 := by
  cases i <;> simp [Instr.operandBytes, Instr.registerOperands]

/-- The opcode byte announces the instruction's operands, and its key is the instruction's. -/
theorem Instr.opcode_fields (m : Config.OpMap) (i : Instr) : operandCount (i.opcode m) = i.operandBytes.length ∧ keyOf (i.opcode m) = i.key m :=
  opcodeByte_fields _ i.operandBytes_length_lt _ _ _

/-- The opcode byte's `is_alu` and `sets_pc` name the instruction's namespace. -/
theorem Instr.isAlu_opcode (m : Config.OpMap) (i : Instr) : isAlu (i.opcode m) = i.inAlu := congrArg (fun k => k.1) (i.opcode_fields m).2

theorem Instr.setsPc_opcode (m : Config.OpMap) (i : Instr) : setsPc (i.opcode m) = i.inControl := congrArg (fun k => k.2.1) (i.opcode_fields m).2

/-- The keys of the rows do not depend on the operand bytes. -/
theorem rows_keys (m : Config.OpMap) (a b : Byte) : (rows a b).map (Instr.key m) = (rows 0 0).map (Instr.key m) := rfl

/-- In a list whose keys differ, the search for a member's key finds the member. -/
theorem find_key {α β : Type} [BEq β] [LawfulBEq β] (f : α → β) {l : List α} (h : (l.map f).Nodup) {x : α} (hx : x ∈ l) :
    l.find? (fun y => f y == f x) = some x := by
  induction l with
  | nil => cases hx
  | cons y ys ih =>
    rw [List.map_cons, List.nodup_cons] at h
    rcases List.mem_cons.mp hx with rfl | hx'
    · simp
    · have hne : f y ≠ f x := fun e => h.1 (e ▸ List.mem_map_of_mem hx')
      simp [hne, ih h.2 hx']

/-- Every instruction is the row of its own operand bytes. -/
theorem Instr.mem_rows (i : Instr) (rest : List Byte) : i ∈ rows ((i.operandBytes ++ rest).getD 0 0) ((i.operandBytes ++ rest).getD 1 0) := by
  cases i <;> simp [Instr.operandBytes, Instr.registerOperands, rows]

/-- A row holds its operand bytes, as many as it has. -/
theorem rows_operandBytes {a b : Byte} {i : Instr} (h : i ∈ rows a b) : i.operandBytes = [a, b].take i.operandBytes.length := by
  have all : (rows a b).all (fun i => i.operandBytes == [a, b].take i.operandBytes.length) = true := by
    simp [rows, Instr.operandBytes, Instr.registerOperands]
  simpa using List.all_eq_true.mp all i h

/-- What the lookup answers with is a row under the opcode byte's key and operand count: that byte is the instruction's opcode byte. -/
theorem lookup_some {m : Config.OpMap} {opcode a b : Byte} {i : Instr} (h : lookup m opcode a b = some i) :
    i ∈ rows a b ∧ i.opcode m = opcode ∧ i.operandBytes.length = operandCount opcode := by
  unfold lookup at h
  split at h
  · rename_i j hj
    split at h
    · rename_i hc
      cases h
      have hk : i.key m = keyOf opcode := by simpa using List.find?_some hj
      simp only [Instr.key, keyOf, Prod.mk.injEq] at hk
      refine ⟨List.mem_of_find?_eq_some hj, ?_, hc⟩
      rw [Instr.opcode, hc, hk.1, hk.2.1]
      exact (opcodeByte_of_fields opcode _ hk.2.2.symm).symm
    · cases h
  · cases h

/-- Under a valid `OPMAP` the lookup of an instruction's own bytes gives the instruction. -/
theorem lookup_opcode {m : Config.OpMap} (hm : OpMap.valid m) (i : Instr) (rest : List Byte) :
    lookup m (i.opcode m) ((i.operandBytes ++ rest).getD 0 0) ((i.operandBytes ++ rest).getD 1 0) = some i := by
  obtain ⟨hc, hk⟩ := i.opcode_fields m
  have := find_key (Instr.key m) (by rw [rows_keys]; exact hm) (i.mem_rows rest)
  simp only [lookup, hk, this, hc, if_true]

end Sys2Proof
end

