-- ==== Sys2Proof/Laws/State.lean ====
section
/-!
SUPPORT. What every update of the state does to every field, one lemma per field per update, and the register file's two laws.
-/

namespace Sys2Proof.Machine

/-! `setReg` -/

@[simp] theorem State.setReg_mem (s : State) (r : Reg) (v : Byte) : (s.setReg r v).mem = s.mem := rfl
@[simp] theorem State.setReg_regs (s : State) (r : Reg) (v : Byte) : (s.setReg r v).regs = s.regs.set r v := rfl
@[simp] theorem State.setReg_fl (s : State) (r : Reg) (v : Byte) : (s.setReg r v).fl = s.fl := rfl
@[simp] theorem State.setReg_pc (s : State) (r : Reg) (v : Byte) : (s.setReg r v).pc = s.pc := rfl
@[simp] theorem State.setReg_ie (s : State) (r : Reg) (v : Byte) : (s.setReg r v).ie = s.ie := rfl
@[simp] theorem State.setReg_acc (s : State) (r : Reg) (v : Byte) : (s.setReg r v).acc = s.acc := rfl
@[simp] theorem State.setReg_prnOut (s : State) (r : Reg) (v : Byte) : (s.setReg r v).prnOut = s.prnOut := rfl
@[simp] theorem State.setReg_status (s : State) (r : Reg) (v : Byte) : (s.setReg r v).status = s.status := rfl
@[simp] theorem State.setReg_params (s : State) (r : Reg) (v : Byte) : (s.setReg r v).params = s.params := rfl
@[simp] theorem State.setReg_draws (s : State) (r : Reg) (v : Byte) : (s.setReg r v).draws = s.draws := rfl
@[simp] theorem State.setReg_polls (s : State) (r : Reg) (v : Byte) : (s.setReg r v).polls = s.polls := rfl
@[simp] theorem State.setReg_cellAt (s : State) (r : Reg) (v : Byte) (b : Nat) : (s.setReg r v).cellAt b = s.cellAt b := rfl

/-! `setPc` -/

@[simp] theorem State.setPc_mem (s : State) (n : Nat) : (s.setPc n).mem = s.mem := rfl
@[simp] theorem State.setPc_regs (s : State) (n : Nat) : (s.setPc n).regs = s.regs := rfl
@[simp] theorem State.setPc_fl (s : State) (n : Nat) : (s.setPc n).fl = s.fl := rfl
@[simp] theorem State.setPc_pc (s : State) (n : Nat) : (s.setPc n).pc = n := rfl
@[simp] theorem State.setPc_ie (s : State) (n : Nat) : (s.setPc n).ie = s.ie := rfl
@[simp] theorem State.setPc_acc (s : State) (n : Nat) : (s.setPc n).acc = s.acc := rfl
@[simp] theorem State.setPc_prnOut (s : State) (n : Nat) : (s.setPc n).prnOut = s.prnOut := rfl
@[simp] theorem State.setPc_status (s : State) (n : Nat) : (s.setPc n).status = s.status := rfl
@[simp] theorem State.setPc_params (s : State) (n : Nat) : (s.setPc n).params = s.params := rfl
@[simp] theorem State.setPc_draws (s : State) (n : Nat) : (s.setPc n).draws = s.draws := rfl
@[simp] theorem State.setPc_polls (s : State) (n : Nat) : (s.setPc n).polls = s.polls := rfl
@[simp] theorem State.setPc_reg (s : State) (n : Nat) (q : Reg) : (s.setPc n).reg q = s.reg q := rfl
@[simp] theorem State.setPc_cellAt (s : State) (n : Nat) (b : Nat) : (s.setPc n).cellAt b = s.cellAt b := rfl

/-! `setFlags` -/

@[simp] theorem State.setFlags_mem (s : State) (f : Flags) : (s.setFlags f).mem = s.mem := rfl
@[simp] theorem State.setFlags_regs (s : State) (f : Flags) : (s.setFlags f).regs = s.regs := rfl
@[simp] theorem State.setFlags_fl (s : State) (f : Flags) : (s.setFlags f).fl = f := rfl
@[simp] theorem State.setFlags_pc (s : State) (f : Flags) : (s.setFlags f).pc = s.pc := rfl
@[simp] theorem State.setFlags_ie (s : State) (f : Flags) : (s.setFlags f).ie = s.ie := rfl
@[simp] theorem State.setFlags_acc (s : State) (f : Flags) : (s.setFlags f).acc = s.acc := rfl
@[simp] theorem State.setFlags_prnOut (s : State) (f : Flags) : (s.setFlags f).prnOut = s.prnOut := rfl
@[simp] theorem State.setFlags_status (s : State) (f : Flags) : (s.setFlags f).status = s.status := rfl
@[simp] theorem State.setFlags_params (s : State) (f : Flags) : (s.setFlags f).params = s.params := rfl
@[simp] theorem State.setFlags_draws (s : State) (f : Flags) : (s.setFlags f).draws = s.draws := rfl
@[simp] theorem State.setFlags_polls (s : State) (f : Flags) : (s.setFlags f).polls = s.polls := rfl
@[simp] theorem State.setFlags_reg (s : State) (f : Flags) (q : Reg) : (s.setFlags f).reg q = s.reg q := rfl
@[simp] theorem State.setFlags_cellAt (s : State) (f : Flags) (b : Nat) : (s.setFlags f).cellAt b = s.cellAt b := rfl

/-! `setIe` -/

@[simp] theorem State.setIe_mem (s : State) (v : Bool) : (s.setIe v).mem = s.mem := rfl
@[simp] theorem State.setIe_regs (s : State) (v : Bool) : (s.setIe v).regs = s.regs := rfl
@[simp] theorem State.setIe_fl (s : State) (v : Bool) : (s.setIe v).fl = s.fl := rfl
@[simp] theorem State.setIe_pc (s : State) (v : Bool) : (s.setIe v).pc = s.pc := rfl
@[simp] theorem State.setIe_ie (s : State) (v : Bool) : (s.setIe v).ie = v := rfl
@[simp] theorem State.setIe_acc (s : State) (v : Bool) : (s.setIe v).acc = s.acc := rfl
@[simp] theorem State.setIe_prnOut (s : State) (v : Bool) : (s.setIe v).prnOut = s.prnOut := rfl
@[simp] theorem State.setIe_status (s : State) (v : Bool) : (s.setIe v).status = s.status := rfl
@[simp] theorem State.setIe_params (s : State) (v : Bool) : (s.setIe v).params = s.params := rfl
@[simp] theorem State.setIe_draws (s : State) (v : Bool) : (s.setIe v).draws = s.draws := rfl
@[simp] theorem State.setIe_polls (s : State) (v : Bool) : (s.setIe v).polls = s.polls := rfl
@[simp] theorem State.setIe_reg (s : State) (v : Bool) (q : Reg) : (s.setIe v).reg q = s.reg q := rfl
@[simp] theorem State.setIe_cellAt (s : State) (v : Bool) (b : Nat) : (s.setIe v).cellAt b = s.cellAt b := rfl

/-! `setStatus` -/

@[simp] theorem State.setStatus_mem (s : State) (v : RunStatus) : (s.setStatus v).mem = s.mem := rfl
@[simp] theorem State.setStatus_regs (s : State) (v : RunStatus) : (s.setStatus v).regs = s.regs := rfl
@[simp] theorem State.setStatus_fl (s : State) (v : RunStatus) : (s.setStatus v).fl = s.fl := rfl
@[simp] theorem State.setStatus_pc (s : State) (v : RunStatus) : (s.setStatus v).pc = s.pc := rfl
@[simp] theorem State.setStatus_ie (s : State) (v : RunStatus) : (s.setStatus v).ie = s.ie := rfl
@[simp] theorem State.setStatus_acc (s : State) (v : RunStatus) : (s.setStatus v).acc = s.acc := rfl
@[simp] theorem State.setStatus_prnOut (s : State) (v : RunStatus) : (s.setStatus v).prnOut = s.prnOut := rfl
@[simp] theorem State.setStatus_status (s : State) (v : RunStatus) : (s.setStatus v).status = v := rfl
@[simp] theorem State.setStatus_params (s : State) (v : RunStatus) : (s.setStatus v).params = s.params := rfl
@[simp] theorem State.setStatus_draws (s : State) (v : RunStatus) : (s.setStatus v).draws = s.draws := rfl
@[simp] theorem State.setStatus_polls (s : State) (v : RunStatus) : (s.setStatus v).polls = s.polls := rfl
@[simp] theorem State.setStatus_reg (s : State) (v : RunStatus) (q : Reg) : (s.setStatus v).reg q = s.reg q := rfl
@[simp] theorem State.setStatus_cellAt (s : State) (v : RunStatus) (b : Nat) : (s.setStatus v).cellAt b = s.cellAt b := rfl

/-! `setCell` -/

@[simp] theorem State.setCell_mem (s : State) (a : Nat) (c : Cell) : (s.setCell a c).mem = Memory.write s.mem a c := rfl
@[simp] theorem State.setCell_regs (s : State) (a : Nat) (c : Cell) : (s.setCell a c).regs = s.regs := rfl
@[simp] theorem State.setCell_fl (s : State) (a : Nat) (c : Cell) : (s.setCell a c).fl = s.fl := rfl
@[simp] theorem State.setCell_pc (s : State) (a : Nat) (c : Cell) : (s.setCell a c).pc = s.pc := rfl
@[simp] theorem State.setCell_ie (s : State) (a : Nat) (c : Cell) : (s.setCell a c).ie = s.ie := rfl
@[simp] theorem State.setCell_acc (s : State) (a : Nat) (c : Cell) : (s.setCell a c).acc = s.acc := rfl
@[simp] theorem State.setCell_prnOut (s : State) (a : Nat) (c : Cell) : (s.setCell a c).prnOut = s.prnOut := rfl
@[simp] theorem State.setCell_status (s : State) (a : Nat) (c : Cell) : (s.setCell a c).status = s.status := rfl
@[simp] theorem State.setCell_params (s : State) (a : Nat) (c : Cell) : (s.setCell a c).params = s.params := rfl
@[simp] theorem State.setCell_draws (s : State) (a : Nat) (c : Cell) : (s.setCell a c).draws = s.draws := rfl
@[simp] theorem State.setCell_polls (s : State) (a : Nat) (c : Cell) : (s.setCell a c).polls = s.polls := rfl
@[simp] theorem State.setCell_reg (s : State) (a : Nat) (c : Cell) (q : Reg) : (s.setCell a c).reg q = s.reg q := rfl

/-! `appendAcc` -/

@[simp] theorem State.appendAcc_mem (s : State) (c : Byte) : (s.appendAcc c).mem = s.mem := rfl
@[simp] theorem State.appendAcc_regs (s : State) (c : Byte) : (s.appendAcc c).regs = s.regs := rfl
@[simp] theorem State.appendAcc_fl (s : State) (c : Byte) : (s.appendAcc c).fl = s.fl := rfl
@[simp] theorem State.appendAcc_pc (s : State) (c : Byte) : (s.appendAcc c).pc = s.pc := rfl
@[simp] theorem State.appendAcc_ie (s : State) (c : Byte) : (s.appendAcc c).ie = s.ie := rfl
@[simp] theorem State.appendAcc_acc (s : State) (c : Byte) : (s.appendAcc c).acc = s.acc ++ [c] := rfl
@[simp] theorem State.appendAcc_prnOut (s : State) (c : Byte) : (s.appendAcc c).prnOut = s.prnOut := rfl
@[simp] theorem State.appendAcc_status (s : State) (c : Byte) : (s.appendAcc c).status = s.status := rfl
@[simp] theorem State.appendAcc_params (s : State) (c : Byte) : (s.appendAcc c).params = s.params := rfl
@[simp] theorem State.appendAcc_draws (s : State) (c : Byte) : (s.appendAcc c).draws = s.draws := rfl
@[simp] theorem State.appendAcc_polls (s : State) (c : Byte) : (s.appendAcc c).polls = s.polls := rfl
@[simp] theorem State.appendAcc_reg (s : State) (c : Byte) (q : Reg) : (s.appendAcc c).reg q = s.reg q := rfl
@[simp] theorem State.appendAcc_cellAt (s : State) (c : Byte) (b : Nat) : (s.appendAcc c).cellAt b = s.cellAt b := rfl

/-! `appendPrn` -/

@[simp] theorem State.appendPrn_mem (s : State) (d : List Char) : (s.appendPrn d).mem = s.mem := rfl
@[simp] theorem State.appendPrn_regs (s : State) (d : List Char) : (s.appendPrn d).regs = s.regs := rfl
@[simp] theorem State.appendPrn_fl (s : State) (d : List Char) : (s.appendPrn d).fl = s.fl := rfl
@[simp] theorem State.appendPrn_pc (s : State) (d : List Char) : (s.appendPrn d).pc = s.pc := rfl
@[simp] theorem State.appendPrn_ie (s : State) (d : List Char) : (s.appendPrn d).ie = s.ie := rfl
@[simp] theorem State.appendPrn_acc (s : State) (d : List Char) : (s.appendPrn d).acc = s.acc := rfl
@[simp] theorem State.appendPrn_prnOut (s : State) (d : List Char) : (s.appendPrn d).prnOut = s.prnOut ++ [d] := rfl
@[simp] theorem State.appendPrn_status (s : State) (d : List Char) : (s.appendPrn d).status = s.status := rfl
@[simp] theorem State.appendPrn_params (s : State) (d : List Char) : (s.appendPrn d).params = s.params := rfl
@[simp] theorem State.appendPrn_draws (s : State) (d : List Char) : (s.appendPrn d).draws = s.draws := rfl
@[simp] theorem State.appendPrn_polls (s : State) (d : List Char) : (s.appendPrn d).polls = s.polls := rfl
@[simp] theorem State.appendPrn_reg (s : State) (d : List Char) (q : Reg) : (s.appendPrn d).reg q = s.reg q := rfl
@[simp] theorem State.appendPrn_cellAt (s : State) (d : List Char) (b : Nat) : (s.appendPrn d).cellAt b = s.cellAt b := rfl

/-! `advance` -/

@[simp] theorem State.advance_mem (s : State) (n : Nat) : (s.advance n).mem = s.mem := rfl
@[simp] theorem State.advance_regs (s : State) (n : Nat) : (s.advance n).regs = s.regs := rfl
@[simp] theorem State.advance_fl (s : State) (n : Nat) : (s.advance n).fl = s.fl := rfl
@[simp] theorem State.advance_pc (s : State) (n : Nat) : (s.advance n).pc = s.pc + n := rfl
@[simp] theorem State.advance_ie (s : State) (n : Nat) : (s.advance n).ie = s.ie := rfl
@[simp] theorem State.advance_acc (s : State) (n : Nat) : (s.advance n).acc = s.acc := rfl
@[simp] theorem State.advance_prnOut (s : State) (n : Nat) : (s.advance n).prnOut = s.prnOut := rfl
@[simp] theorem State.advance_status (s : State) (n : Nat) : (s.advance n).status = s.status := rfl
@[simp] theorem State.advance_params (s : State) (n : Nat) : (s.advance n).params = s.params := rfl
@[simp] theorem State.advance_draws (s : State) (n : Nat) : (s.advance n).draws = s.draws := rfl
@[simp] theorem State.advance_polls (s : State) (n : Nat) : (s.advance n).polls = s.polls := rfl
@[simp] theorem State.advance_reg (s : State) (n : Nat) (q : Reg) : (s.advance n).reg q = s.reg q := rfl
@[simp] theorem State.advance_cellAt (s : State) (n : Nat) (b : Nat) : (s.advance n).cellAt b = s.cellAt b := rfl

/-! `consumeDraw` -/

@[simp] theorem State.consumeDraw_mem (s : State) : s.consumeDraw.mem = s.mem := rfl
@[simp] theorem State.consumeDraw_regs (s : State) : s.consumeDraw.regs = s.regs := rfl
@[simp] theorem State.consumeDraw_fl (s : State) : s.consumeDraw.fl = s.fl := rfl
@[simp] theorem State.consumeDraw_pc (s : State) : s.consumeDraw.pc = s.pc := rfl
@[simp] theorem State.consumeDraw_ie (s : State) : s.consumeDraw.ie = s.ie := rfl
@[simp] theorem State.consumeDraw_acc (s : State) : s.consumeDraw.acc = s.acc := rfl
@[simp] theorem State.consumeDraw_prnOut (s : State) : s.consumeDraw.prnOut = s.prnOut := rfl
@[simp] theorem State.consumeDraw_status (s : State) : s.consumeDraw.status = s.status := rfl
@[simp] theorem State.consumeDraw_params (s : State) : s.consumeDraw.params = s.params := rfl
@[simp] theorem State.consumeDraw_draws (s : State) : s.consumeDraw.draws = s.draws.tail := rfl
@[simp] theorem State.consumeDraw_polls (s : State) : s.consumeDraw.polls = s.polls + 1 := rfl
@[simp] theorem State.consumeDraw_reg (s : State) (q : Reg) : s.consumeDraw.reg q = s.reg q := rfl
@[simp] theorem State.consumeDraw_cellAt (s : State) (b : Nat) : s.consumeDraw.cellAt b = s.cellAt b := rfl

/-! The register file -/

@[simp] theorem RegFile.get_set (f : RegFile) (r q : Reg) (v : Byte) : (f.set r v).get q = if q = r then v else f.get q := by
  cases r <;> cases q <;> rfl

theorem RegFile.ext_get (f g : RegFile) (h : ∀ r, f.get r = g.get r) : f = g := by
  cases f
  cases g
  have h0 := h .r0
  have h1 := h .r1
  have h2 := h .r2
  have h3 := h .r3
  have h4 := h .r4
  have h5 := h .r5
  have h6 := h .r6
  have h7 := h .r7
  simp only [RegFile.get] at h0 h1 h2 h3 h4 h5 h6 h7
  simp [h0, h1, h2, h3, h4, h5, h6, h7]

@[simp] theorem State.setReg_reg (s : State) (r q : Reg) (v : Byte) : (s.setReg r v).reg q = if q = r then v else s.reg q :=
  RegFile.get_set s.regs r q v

end Sys2Proof.Machine
end

