-- ==== Sys2Proof/Laws/Memory.lean ====
section
/-!
SUPPORT. The laws of memory: a read after a write, and that a write keeps the canonical form.
-/

namespace Sys2Proof.Machine

theorem Memory.read_nil (a : Nat) : Memory.read [] a = unlistedCell := rfl

theorem Memory.read_cons (p : Nat × Cell) (m : Memory) (a : Nat) : Memory.read (p :: m) a = if p.1 = a then p.2 else Memory.read m a := rfl

/-- Dropping every entry of one address leaves the reads of all others. -/
theorem Memory.read_filter_of_ne (m : Memory) {a b : Nat} (h : b ≠ a) : Memory.read (m.filter (fun p => p.1 != a)) b = Memory.read m b := by
  induction m with
  | nil => rfl
  | cons p m ih =>
    by_cases hp : p.1 = a
    · have hb : p.1 ≠ b := fun e => h (e.symm.trans hp)
      simp [hp, Memory.read_cons, ih, Ne.symm h]
    · simp [hp, Memory.read_cons, ih]

/-- An address without an entry reads as the unlisted cell. -/
theorem Memory.read_of_forall_ne (m : Memory) (a : Nat) (h : ∀ p ∈ m, p.1 ≠ a) : Memory.read m a = unlistedCell := by
  induction m with
  | nil => rfl
  | cons p m ih =>
    rw [Memory.read_cons, if_neg (h p List.mem_cons_self)]
    exact ih (fun q hq => h q (List.mem_cons_of_mem _ hq))

theorem Memory.read_filter_self (m : Memory) (a : Nat) : Memory.read (m.filter (fun p => p.1 != a)) a = unlistedCell :=
  Memory.read_of_forall_ne _ _ (fun p hp => by simpa using (List.mem_filter.mp hp).2)

theorem Memory.read_insertCell (m : Memory) (a b : Nat) (c : Cell) (h : ∀ p ∈ m, p.1 ≠ a) :
    Memory.read (Memory.insertCell a c m) b = if b = a then c else Memory.read m b := by
  induction m with
  | nil => simp [Memory.insertCell, Memory.read_cons, eq_comm]
  | cons p m ih =>
    have ih' := ih (fun q hq => h q (List.mem_cons_of_mem _ hq))
    have hp : p.1 ≠ a := h p List.mem_cons_self
    by_cases hlt : p.1 < a
    · by_cases hb : b = a
      · subst hb
        simp [Memory.insertCell, hlt, Memory.read_cons, ih', hp]
      · simp [Memory.insertCell, hlt, Memory.read_cons, ih', hb]
    · by_cases hb : b = a
      · subst hb
        simp [Memory.insertCell, hlt, Memory.read_cons]
      · simp [Memory.insertCell, hlt, Memory.read_cons, hb, Ne.symm hb]

/-- Read after write, for every list, canonical or not. -/
theorem Memory.read_write (m : Memory) (a b : Nat) (c : Cell) : Memory.read (Memory.write m a c) b = if b = a then c else Memory.read m b := by
  have hne : ∀ p ∈ m.filter (fun p => p.1 != a), p.1 ≠ a := fun p hp => by simpa using (List.mem_filter.mp hp).2
  by_cases hc : c = unlistedCell
  · by_cases hb : b = a
    · subst hb
      simp [Memory.write, hc, Memory.read_filter_self]
    · simp [Memory.write, hc, hb, Memory.read_filter_of_ne m hb]
  · by_cases hb : b = a
    · simp [Memory.write, hc, Memory.read_insertCell _ _ _ _ hne, hb]
    · simp [Memory.write, hc, Memory.read_insertCell _ _ _ _ hne, hb, Memory.read_filter_of_ne m hb]

theorem Memory.mem_insertCell {p : Nat × Cell} {a : Nat} {c : Cell} {m : Memory} (h : p ∈ Memory.insertCell a c m) : p = (a, c) ∨ p ∈ m := by
  induction m with
  | nil => simpa [Memory.insertCell] using h
  | cons q m ih =>
    by_cases hlt : q.1 < a
    · simp only [Memory.insertCell, hlt, if_true, List.mem_cons] at h
      rcases h with rfl | h
      · exact .inr List.mem_cons_self
      · exact (ih h).imp_right (List.mem_cons_of_mem _)
    · simpa [Memory.insertCell, hlt] using h

theorem Memory.pairwise_insertCell {m : Memory} {a : Nat} {c : Cell} (hm : m.Pairwise (fun p q => p.1 < q.1)) (hne : ∀ p ∈ m, p.1 ≠ a) :
    (Memory.insertCell a c m).Pairwise (fun p q => p.1 < q.1) := by
  induction m with
  | nil => simp [Memory.insertCell]
  | cons q m ih =>
    have ⟨hq, hm'⟩ := List.pairwise_cons.mp hm
    by_cases hlt : q.1 < a
    · simp only [Memory.insertCell, hlt, if_true]
      refine List.pairwise_cons.mpr ⟨fun p hp => ?_, ih hm' (fun p hp => hne p (List.mem_cons_of_mem _ hp))⟩
      rcases Memory.mem_insertCell hp with rfl | hp
      · exact hlt
      · exact hq p hp
    · have haq : a < q.1 := by
        have := hne q List.mem_cons_self
        omega
      simp only [Memory.insertCell, hlt, if_false]
      refine List.pairwise_cons.mpr ⟨fun p hp => ?_, hm⟩
      rcases List.mem_cons.mp hp with rfl | hp
      · exact haq
      · exact Nat.lt_trans haq (hq p hp)

/-- Every entry after a write is an old one or the one written. -/
theorem Memory.mem_write {p : Nat × Cell} {m : Memory} {a : Nat} {c : Cell} (h : p ∈ Memory.write m a c) : p = (a, c) ∨ p ∈ m := by
  unfold Memory.write at h
  by_cases hc : c = unlistedCell
  · simp only [hc, if_true] at h
    exact .inr (List.mem_filter.mp h).1
  · simp only [hc, if_false] at h
    exact (Memory.mem_insertCell h).imp_right (fun h => (List.mem_filter.mp h).1)

/-- A write keeps the canonical form. -/
theorem Memory.wf_write {m : Memory} {a : Nat} {c : Cell} (hm : Memory.wf m) (ha : a < 256) : Memory.wf (Memory.write m a c) := by
  have hfilter := List.Pairwise.filter (fun p => p.1 != a) hm.1
  by_cases hc : c = unlistedCell
  · subst hc
    simp only [Memory.wf, Memory.write, if_true]
    exact ⟨hfilter, fun p hp => hm.2 p (List.mem_filter.mp hp).1⟩
  · refine ⟨?_, fun p hp => ?_⟩
    · simp only [Memory.write, hc, if_false]
      exact Memory.pairwise_insertCell hfilter (fun p hp => by simpa using (List.mem_filter.mp hp).2)
    · rcases Memory.mem_write hp with rfl | hp
      · exact ⟨ha, hc⟩
      · exact hm.2 p hp

/-- The one operation through which data is written keeps the canonical form. -/
theorem memWrite_wf {a : Nat} {c : Cell} {s t : State} (hs : Memory.wf s.mem) (h : memWrite a c s = .ok t) : Memory.wf t.mem := by
  unfold memWrite at h
  split at h
  · cases h
  · cases h
    exact Memory.wf_write hs (by omega)

/-- The memory of reset has the canonical form. -/
theorem reset_wf : Memory.wf State.reset.mem := by decide

@[simp] theorem State.setCell_cellAt (s : State) (a b : Nat) (c : Cell) : (s.setCell a c).cellAt b = if b = a then c else s.cellAt b :=
  Memory.read_write s.mem a b c

/-- A listed cell of canonical memory is bounded by whatever bounds all entries. -/
theorem Memory.read_of_forall (P : Cell → Prop) (m : Memory) (a : Nat) (h0 : P unlistedCell) (h : ∀ p ∈ m, P p.2) : P (Memory.read m a) := by
  induction m with
  | nil => exact h0
  | cons p m ih =>
    rw [Memory.read_cons]
    split
    · exact h p List.mem_cons_self
    · exact ih (fun q hq => h q (List.mem_cons_of_mem _ hq))

end Sys2Proof.Machine
end

