-- ==== Sys2Proof/Laws/Stack.lean ====
section
/-!
SUPPORT. What the memory unit, the stack primitives and the two register loops of the interrupt frame can do, said once each.
-/

namespace Sys2Proof.Machine

/-! ## The memory unit -/

theorem memRead_of_le {a : Nat} (s : State) (h : a ≤ 255) : memRead a s = .ok (s.cellAt a) := by
  simp [memRead, Nat.not_lt.mpr h]

theorem memRead_of_gt {a : Nat} (s : State) (h : 255 < a) : memRead a s = .error (.memoryFault a) := by
  simp [memRead, h]

theorem memWrite_of_le {a : Nat} (c : Cell) (s : State) (h : a ≤ 255) : memWrite a c s = .ok (s.setCell a c) := by
  simp [memWrite, Nat.not_lt.mpr h]

theorem memWrite_of_gt {a : Nat} (c : Cell) (s : State) (h : 255 < a) : memWrite a c s = .error (.memoryFault a) := by
  simp [memWrite, h]

theorem Byte.toNat_le (b : Byte) : b.toNat ≤ 255 := by
  have := b.isLt
  omega

/-- An address taken from a register is always in range (spec/20_memory.md R41). -/
@[simp] theorem memRead_byte (b : Byte) (s : State) : memRead b.toNat s = .ok (s.cellAt b.toNat) :=
  memRead_of_le s (Byte.toNat_le b)

@[simp] theorem memWrite_byte (b : Byte) (c : Cell) (s : State) : memWrite b.toNat c s = .ok (s.setCell b.toNat c) :=
  memWrite_of_le c s (Byte.toNat_le b)

theorem readByte_byte (b : Byte) (s : State) : readByte b.toNat s = expectByte b.toNat (s.cellAt b.toNat) := by
  simp [readByte, bind, Except.bind]

/-! ## The stack pointer -/

theorem Byte.toNat_sub_one {b : Byte} (h : b ≠ 0#8) : (b - 1#8).toNat = b.toNat - 1 := by
  have hb : b.toNat ≠ 0 := fun e => h (BitVec.eq_of_toNat_eq (by simpa using e))
  have := b.isLt
  rw [BitVec.toNat_sub]
  simp
  omega

theorem Byte.toNat_add_one {b : Byte} (h : b ≠ 255#8) : (b + 1#8).toNat = b.toNat + 1 := by
  have hb : b.toNat ≠ 255 := fun e => h (BitVec.eq_of_toNat_eq (by simpa using e))
  have := b.isLt
  rw [BitVec.toNat_add]
  simp
  omega

theorem Byte.ne_zero_of_toNat {b : Byte} (h : b.toNat ≠ 0) : b ≠ 0#8 := fun e => h (by simp [e])

theorem Byte.ne_max_of_toNat {b : Byte} (h : b.toNat ≠ 255) : b ≠ 255#8 := fun e => h (by simp [e])

/-- The state after a push: the stack pointer one lower, the cell at it. -/
def State.pushed (s : State) (c : Cell) : State := (s.setReg .r7 (s.reg .r7 - 1#8)).setCell (s.reg .r7 - 1#8).toNat c

/-- The state after a pop: the stack pointer one higher. -/
def State.popped (s : State) : State := s.setReg .r7 (s.reg .r7 + 1#8)

/-- Everything `Push(c)` can do (spec/20_memory.md R56). -/
theorem push_eq (c : Cell) (s : State) : push c s = if s.reg .r7 = 0#8 then .error (.stackFault (-1)) else .ok (s.pushed c) := by
  unfold push decrementSp State.pushed
  split
  · rfl
  · simp only [bind, Except.bind, State.setReg_reg, if_true, memWrite_byte]

/-- Everything `Pop()` can do (spec/20_memory.md R57). -/
theorem pop_eq (s : State) : pop s = if s.reg .r7 = 255#8 then .error (.stackFault 256) else .ok (s.cellAt (s.reg .r7).toNat, s.popped) := by
  unfold pop incrementSp State.popped
  split <;> simp [bind, Except.bind]

theorem popByte_eq (s : State) :
    popByte s = if s.reg .r7 = 255#8 then .error (.stackFault 256)
      else match s.cellAt (s.reg .r7).toNat with
        | .byte b => .ok (b, s.popped)
        | .raw _ => .error (.tagFault (s.reg .r7).toNat) := by
  unfold popByte
  rw [pop_eq]
  split
  · rfl
  · cases h : s.cellAt (s.reg .r7).toNat <;> simp [bind, Except.bind, expectByte]

theorem popRaw_eq (s : State) :
    popRaw s = if s.reg .r7 = 255#8 then .error (.stackFault 256)
      else match s.cellAt (s.reg .r7).toNat with
        | .raw n => .ok (n, s.popped)
        | .byte _ => .error (.tagFault (s.reg .r7).toNat) := by
  unfold popRaw
  rw [pop_eq]
  split
  · rfl
  · cases h : s.cellAt (s.reg .r7).toNat <;> simp [bind, Except.bind, expectRaw]

/-! ## States that differ in memory and registers only -/

/-- `t` is `s` but for memory and registers: what a push, a pop and the two loops below leave alone. -/
def State.SameRest (s t : State) : Prop := t = { s with mem := t.mem, regs := t.regs }

theorem State.SameRest.refl (s : State) : s.SameRest s := rfl

theorem State.SameRest.trans {s t u : State} (h1 : s.SameRest t) (h2 : t.SameRest u) : s.SameRest u := by
  unfold State.SameRest at *
  rw [h2]
  conv => lhs; rw [h1]

theorem State.sameRest_setReg (s : State) (r : Reg) (v : Byte) : s.SameRest (s.setReg r v) := rfl

theorem State.sameRest_setCell (s : State) (a : Nat) (c : Cell) : s.SameRest (s.setCell a c) := rfl

theorem State.sameRest_pushed (s : State) (c : Cell) : s.SameRest (s.pushed c) := rfl

theorem State.sameRest_popped (s : State) : s.SameRest s.popped := rfl

theorem State.SameRest.fields {s t : State} (h : s.SameRest t) :
    t.fl = s.fl ∧ t.pc = s.pc ∧ t.ie = s.ie ∧ t.acc = s.acc ∧ t.prnOut = s.prnOut ∧ t.status = s.status ∧ t.params = s.params ∧
      t.draws = s.draws ∧ t.polls = s.polls := by
  unfold State.SameRest at h
  rw [h]
  simp

@[simp] theorem State.pushed_reg (s : State) (c : Cell) (q : Reg) : (s.pushed c).reg q = if q = .r7 then s.reg .r7 - 1#8 else s.reg q := by
  simp [State.pushed]

@[simp] theorem State.pushed_cellAt (s : State) (c : Cell) (a : Nat) :
    (s.pushed c).cellAt a = if a = (s.reg .r7 - 1#8).toNat then c else s.cellAt a := by
  simp [State.pushed]

@[simp] theorem State.popped_reg (s : State) (q : Reg) : s.popped.reg q = if q = .r7 then s.reg .r7 + 1#8 else s.reg q := by
  simp [State.popped]

@[simp] theorem State.popped_cellAt (s : State) (a : Nat) : s.popped.cellAt a = s.cellAt a := rfl

/-! ## The register loops of the interrupt frame -/

/-- Everything `pushRegs` can do: with room for all, the registers' values one below the other, and nothing else changed; else `StackFault`. -/
theorem pushRegs_spec (rs : List Reg) (h7 : Reg.r7 ∉ rs) (s : State) :
    ((s.reg .r7).toNat < rs.length → pushRegs rs s = .error (.stackFault (-1))) ∧
    (rs.length ≤ (s.reg .r7).toNat → ∃ t, pushRegs rs s = .ok t ∧ (t.reg .r7).toNat = (s.reg .r7).toNat - rs.length ∧
      (∀ r, r ≠ .r7 → t.reg r = s.reg r) ∧
      (∀ i (h : i < rs.length), t.cellAt ((s.reg .r7).toNat - 1 - i) = .byte (s.reg rs[i])) ∧
      (∀ a, (a < (s.reg .r7).toNat - rs.length ∨ (s.reg .r7).toNat ≤ a) → t.cellAt a = s.cellAt a) ∧ s.SameRest t) := by
  induction rs generalizing s with
  | nil => exact ⟨fun h => absurd h (by simp), fun _ => ⟨s, rfl, by simp, fun _ _ => rfl, fun i h => absurd h (by simp), fun _ _ => rfl, .refl s⟩⟩
  | cons r rs ih =>
    have hr : r ≠ .r7 := fun e => h7 (by simp [e])
    have hrs : Reg.r7 ∉ rs := fun e => h7 (by simp [e])
    by_cases h0 : s.reg .r7 = 0#8
    · have : (s.reg .r7).toNat = 0 := by simp [h0]
      refine ⟨fun _ => ?_, fun h => ?_⟩
      · simp [pushRegs, push_eq, h0, bind, Except.bind]
      · simp [this] at h
    · have hsp := Byte.toNat_sub_one h0
      have hpos : (s.reg .r7).toNat ≠ 0 := fun e => h0 (BitVec.eq_of_toNat_eq (by simpa using e))
      obtain ⟨ihf, iho⟩ := ih hrs (s.pushed (.byte (s.reg r)))
      simp only [State.pushed_reg, if_true, hsp] at ihf iho
      have hstep : pushRegs (r :: rs) s = pushRegs rs (s.pushed (.byte (s.reg r))) := by
        simp [pushRegs, push_eq, h0, bind, Except.bind]
      refine ⟨fun h => ?_, fun h => ?_⟩
      · rw [hstep]
        exact ihf (by simp at h; omega)
      · simp only [List.length_cons] at h
        have hroom : rs.length ≤ (s.reg .r7).toNat - 1 := by omega
        obtain ⟨t, ht, h1, h2, h3, h4, h5⟩ := iho hroom
        clear ih ihf iho
        refine ⟨t, hstep.trans ht, by simp only [List.length_cons]; omega, fun q hq => by rw [h2 q hq]; simp [hq], fun i hi => ?_, fun a ha => ?_,
          (State.sameRest_pushed _ _).trans h5⟩
        · cases i with
          | zero =>
            rw [h4 _ (.inr (by simp))]
            simp [hsp]
          | succ j =>
            have hj : j < rs.length := by simpa using hi
            have := h3 j hj
            rw [show (s.reg .r7).toNat - 1 - (j + 1) = (s.reg .r7).toNat - 1 - 1 - j by omega, this]
            have : rs[j] ≠ .r7 := fun e => hrs (e ▸ List.getElem_mem hj)
            simp [this]
        · simp only [List.length_cons] at ha
          have hne : a ≠ (s.reg .r7 - 1#8).toNat := by omega
          have ha' : a < (s.reg .r7).toNat - 1 - rs.length ∨ (s.reg .r7).toNat - 1 ≤ a := by omega
          rw [h4 a ha', State.pushed_cellAt, if_neg hne]

/-- Everything `zeroRegs` does. -/
theorem zeroRegs_spec (rs : List Reg) (s : State) :
    (∀ r, (zeroRegs rs s).reg r = if r ∈ rs then 0#8 else s.reg r) ∧ (∀ a, (zeroRegs rs s).cellAt a = s.cellAt a) ∧ s.SameRest (zeroRegs rs s) := by
  induction rs generalizing s with
  | nil => exact ⟨fun r => by simp [zeroRegs], fun _ => rfl, .refl s⟩
  | cons q rs ih =>
    obtain ⟨h1, h2, h3⟩ := ih (s.setReg q 0#8)
    refine ⟨fun r => ?_, fun a => by simp [zeroRegs, h2], (State.sameRest_setReg s q 0#8).trans h3⟩
    simp only [zeroRegs, h1, State.setReg_reg, List.mem_cons]
    by_cases hr : r ∈ rs <;> by_cases hq : r = q <;> simp [hr, hq]

/-- `popRegs` when every cell it meets is a Byte cell and the stack pointer stays below 256. -/
theorem popRegs_ok (rs : List Reg) (h7 : Reg.r7 ∉ rs) (hnd : rs.Nodup) (s : State) (b : Nat → Byte)
    (hsp : (s.reg .r7).toNat + rs.length ≤ 255) (hb : ∀ i, i < rs.length → s.cellAt ((s.reg .r7).toNat + i) = .byte (b i)) :
    ∃ t, popRegs rs s = .ok t ∧ (t.reg .r7).toNat = (s.reg .r7).toNat + rs.length ∧
      (∀ r, r ≠ .r7 → r ∉ rs → t.reg r = s.reg r) ∧ (∀ i (h : i < rs.length), t.reg rs[i] = b i) ∧
      (∀ a, t.cellAt a = s.cellAt a) ∧ s.SameRest t := by
  induction rs generalizing s b with
  | nil => exact ⟨s, rfl, by simp, fun _ _ _ => rfl, fun i h => absurd h (by simp), fun _ => rfl, .refl s⟩
  | cons r rs ih =>
    have hr : r ≠ .r7 := fun e => h7 (by simp [e])
    have hrs : Reg.r7 ∉ rs := fun e => h7 (by simp [e])
    have ⟨hrmem, hnd'⟩ := List.nodup_cons.mp hnd
    simp only [List.length_cons] at hsp
    have hne : s.reg .r7 ≠ 255#8 := Byte.ne_max_of_toNat (by omega)
    have hb0 : s.cellAt (s.reg .r7).toNat = .byte (b 0) := by simpa using hb 0 (by simp)
    have hsp1 := Byte.toNat_add_one hne
    obtain ⟨t, ht, h1, h2, h3, h4, h5⟩ := ih hrs hnd' (s.popped.setReg r (b 0)) (fun i => b (i + 1))
      (by simp [Ne.symm hr, hsp1]; omega)
      (fun i hi => by
        have := hb (i + 1) (by simpa using hi)
        simpa [Ne.symm hr, hsp1, Nat.add_assoc, Nat.add_comm 1 i] using this)
    refine ⟨t, ?_, ?_, fun q hq7 hq => ?_, fun i hi => ?_, fun a => by simp [h4], ?_⟩
    · simpa [popRegs, popByte_eq, hne, hb0, bind, Except.bind] using ht
    · simp [Ne.symm hr, hsp1] at h1
      simp only [List.length_cons]
      omega
    · simp only [List.mem_cons, not_or] at hq
      rw [h2 q hq7 hq.2]
      simp [hq.1, hq7]
    · cases i with
      | zero =>
        rw [List.getElem_cons_zero, h2 r hr hrmem]
        simp
      | succ j => exact h3 j (by simpa using hi)
    · exact ((State.sameRest_popped s).trans (State.sameRest_setReg _ _ _)).trans h5

/-- `popRegs` at the first cell that stops it: the bound of the stack pointer is checked before the tag. -/
theorem popRegs_error (rs : List Reg) (h7 : Reg.r7 ∉ rs) (s : State) (k : Nat) (hk : k < rs.length)
    (hb : ∀ i, i < k → ∃ b, s.cellAt ((s.reg .r7).toNat + i) = .byte b) (hsp : (s.reg .r7).toNat + k ≤ 255) :
    ((s.reg .r7).toNat + k = 255 → popRegs rs s = .error (.stackFault 256)) ∧
    (∀ n, (s.reg .r7).toNat + k < 255 → s.cellAt ((s.reg .r7).toNat + k) = .raw n →
      popRegs rs s = .error (.tagFault ((s.reg .r7).toNat + k))) := by
  induction rs generalizing s k with
  | nil => simp at hk
  | cons r rs ih =>
    have hr : r ≠ .r7 := fun e => h7 (by simp [e])
    have hrs : Reg.r7 ∉ rs := fun e => h7 (by simp [e])
    cases k with
    | zero =>
      refine ⟨fun h => ?_, fun n h hn => ?_⟩
      · have : s.reg .r7 = 255#8 := BitVec.eq_of_toNat_eq (by simpa using h)
        simp [popRegs, popByte_eq, this, bind, Except.bind]
      · have hne : s.reg .r7 ≠ 255#8 := Byte.ne_max_of_toNat (by omega)
        simp only [Nat.add_zero] at hn
        simp [popRegs, popByte_eq, hne, hn, bind, Except.bind]
    | succ k =>
      have hne : s.reg .r7 ≠ 255#8 := Byte.ne_max_of_toNat (by omega)
      have hsp1 := Byte.toNat_add_one hne
      obtain ⟨b0, hb0⟩ := hb 0 (by simp)
      simp only [Nat.add_zero] at hb0
      have hreg : ((s.popped.setReg r b0).reg .r7).toNat = (s.reg .r7).toNat + 1 := by simp [Ne.symm hr, hsp1]
      have := ih hrs (s.popped.setReg r b0) k (by simpa using hk)
        (fun i hi => by
          obtain ⟨b, hb⟩ := hb (i + 1) (by omega)
          exact ⟨b, by rw [hreg]; simpa [Nat.add_assoc, Nat.add_comm 1 i] using hb⟩)
        (by rw [hreg]; omega)
      rw [hreg] at this
      have hstep : popRegs (r :: rs) s = popRegs rs (s.popped.setReg r b0) := by
        simp [popRegs, popByte_eq, hne, hb0, bind, Except.bind]
      have hadd : (s.reg .r7).toNat + 1 + k = (s.reg .r7).toNat + (k + 1) := by omega
      rw [hadd] at this
      rw [hstep]
      exact ⟨this.1, fun n h hn => this.2 n h (by simpa using hn)⟩

end Sys2Proof.Machine
end

