-- ==== Sys2Proof/Laws/Operands.lean ====
section
/-!
SUPPORT. What the operand check and the shared instruction shapes can answer, said once each.
-/

namespace Sys2Proof.Machine

/-- The operand byte of a register. -/
theorem reg_index {op : Byte} {r : Reg} (h : op.toNat = r.index) : reg op = .ok r := by
  unfold reg
  rw [h]
  cases r <;> rfl

/-- "else raise DecodeError(op)" (spec/30_encoding.md R62). -/
theorem reg_of_gt {op : Byte} (h : 7 < op.toNat) : reg op = .error (.decodeError op.toNat) := by
  unfold reg
  split <;> first | omega | rfl

theorem reg_of_le {op : Byte} (h : op.toNat ≤ 7) : ∃ r, reg op = .ok r := by
  have hcases : op.toNat = 0 ∨ op.toNat = 1 ∨ op.toNat = 2 ∨ op.toNat = 3 ∨ op.toNat = 4 ∨ op.toNat = 5 ∨ op.toNat = 6 ∨ op.toNat = 7 := by omega
  rcases hcases with h | h | h | h | h | h | h | h
  · exact ⟨.r0, reg_index h⟩
  · exact ⟨.r1, reg_index h⟩
  · exact ⟨.r2, reg_index h⟩
  · exact ⟨.r3, reg_index h⟩
  · exact ⟨.r4, reg_index h⟩
  · exact ⟨.r5, reg_index h⟩
  · exact ⟨.r6, reg_index h⟩
  · exact ⟨.r7, reg_index h⟩

theorem reg_ok_le {op : Byte} {r : Reg} (h : reg op = .ok r) : op.toNat ≤ 7 := by
  refine Nat.le_of_not_lt fun hgt => ?_
  rw [reg_of_gt hgt] at h
  cases h

theorem reg_error {op : Byte} {e : Fault} (h : reg op = .error e) : 7 < op.toNat ∧ e = .decodeError op.toNat := by
  rcases Nat.lt_or_ge 7 op.toNat with hgt | hle
  · rw [reg_of_gt hgt] at h
    cases h
    exact ⟨hgt, rfl⟩
  · obtain ⟨r, hr⟩ := reg_of_le hle
    rw [hr] at h
    cases h

/-! ## Outcomes -/

@[simp] theorem finish_ok (s : State) : finish (.ok s) = .next s := rfl

@[simp] theorem finish_error (e : Fault) : finish (.error e) = .fault e := rfl

theorem finish_eq_next {x : Except Fault State} {t : State} : finish x = .next t ↔ x = .ok t := by
  cases x <;> simp [finish]

theorem finish_eq_fault {x : Except Fault State} {e : Fault} : finish x = .fault e ↔ x = .error e := by
  cases x <;> simp [finish]

/-- A bind that answers a value. -/
theorem Except.bind_eq_ok {α β : Type} {x : Except Fault α} {f : α → Except Fault β} {b : β} :
    (x >>= f) = .ok b ↔ ∃ a, x = .ok a ∧ f a = .ok b := by
  cases x <;> simp [bind, Except.bind]

/-- A bind that raises a fault. -/
theorem Except.bind_eq_error {α β : Type} {x : Except Fault α} {f : α → Except Fault β} {e : Fault} :
    (x >>= f) = .error e ↔ x = .error e ∨ ∃ a, x = .ok a ∧ f a = .error e := by
  cases x <;> simp [bind, Except.bind]

/-! ## One register operand -/

theorem withReg_ok {a : Byte} {ra : Reg} (h : reg a = .ok ra) (f : Reg → Except Fault State) : withReg a f = finish (f ra) := by
  simp [withReg, h, bind, Except.bind]

theorem withReg_of_gt {a : Byte} (h : 7 < a.toNat) (f : Reg → Except Fault State) : withReg a f = .fault (.decodeError a.toNat) := by
  simp [withReg, reg_of_gt h, bind, Except.bind]

theorem withReg_next {a : Byte} {f : Reg → Except Fault State} {t : State} : withReg a f = .next t ↔ ∃ ra, reg a = .ok ra ∧ f ra = .ok t := by
  rw [withReg, finish_eq_next, Except.bind_eq_ok]

theorem withReg_fault {a : Byte} {f : Reg → Except Fault State} {e : Fault} :
    withReg a f = .fault e ↔ (7 < a.toNat ∧ e = .decodeError a.toNat) ∨ ∃ ra, reg a = .ok ra ∧ f ra = .error e := by
  rw [withReg, finish_eq_fault, Except.bind_eq_error]
  exact or_congr ⟨reg_error, fun h => h.2 ▸ reg_of_gt h.1⟩ Iff.rfl

/-! ## Two register operands -/

theorem withRegs_ok {a b : Byte} {ra rb : Reg} (ha : reg a = .ok ra) (hb : reg b = .ok rb) (f : Reg → Reg → Except Fault State) :
    withRegs a b f = finish (f ra rb) := by
  simp [withRegs, ha, hb, bind, Except.bind]

theorem withRegs_of_gt_left {a : Byte} (b : Byte) (h : 7 < a.toNat) (f : Reg → Reg → Except Fault State) :
    withRegs a b f = .fault (.decodeError a.toNat) := by
  simp [withRegs, reg_of_gt h, bind, Except.bind]

theorem withRegs_of_gt_right {a b : Byte} {ra : Reg} (ha : reg a = .ok ra) (h : 7 < b.toNat) (f : Reg → Reg → Except Fault State) :
    withRegs a b f = .fault (.decodeError b.toNat) := by
  simp [withRegs, ha, reg_of_gt h, bind, Except.bind]

theorem withRegs_next {a b : Byte} {f : Reg → Reg → Except Fault State} {t : State} :
    withRegs a b f = .next t ↔ ∃ ra rb, reg a = .ok ra ∧ reg b = .ok rb ∧ f ra rb = .ok t := by
  simp only [withRegs, finish_eq_next, Except.bind_eq_ok]
  constructor
  · rintro ⟨ra, ha, rb, hb, h⟩
    exact ⟨ra, rb, ha, hb, h⟩
  · rintro ⟨ra, rb, ha, hb, h⟩
    exact ⟨ra, ha, rb, hb, h⟩

theorem withRegs_fault {a b : Byte} {f : Reg → Reg → Except Fault State} {e : Fault} (h : withRegs a b f = .fault e) :
    (7 < a.toNat ∧ e = .decodeError a.toNat) ∨ (7 < b.toNat ∧ e = .decodeError b.toNat) ∨
      ∃ ra rb, reg a = .ok ra ∧ reg b = .ok rb ∧ f ra rb = .error e := by
  simp only [withRegs, finish_eq_fault, Except.bind_eq_error] at h
  rcases h with h | ⟨ra, ha, h | ⟨rb, hb, h⟩⟩
  · exact .inl (reg_error h)
  · exact .inr (.inl (reg_error h))
  · exact .inr (.inr ⟨ra, rb, ha, hb, h⟩)

/-! ## The ALU shapes and the jump: everything they can answer -/

theorem aluBinary_next {f : Byte → Byte → Byte} {a b : Byte} {s t : State} (h : aluBinary f a b s = .next t) :
    ∃ ra rb, reg a = .ok ra ∧ reg b = .ok rb ∧ t = (s.setReg ra (f (s.reg ra) (s.reg rb))).advance 3 := by
  obtain ⟨ra, rb, ha, hb, h⟩ := withRegs_next.mp h
  exact ⟨ra, rb, ha, hb, (Except.ok.inj h).symm⟩

theorem aluUnary_next {f : Byte → Byte} {a : Byte} {s t : State} (h : aluUnary f a s = .next t) :
    ∃ ra, reg a = .ok ra ∧ t = (s.setReg ra (f (s.reg ra))).advance 2 := by
  obtain ⟨ra, ha, h⟩ := withReg_next.mp h
  exact ⟨ra, ha, (Except.ok.inj h).symm⟩

theorem jumpIf_next {taken : Bool} {a : Byte} {s t : State} (h : jumpIf taken a s = .next t) :
    ∃ ra, reg a = .ok ra ∧ t = s.setPc (if taken then (s.reg ra).toNat else s.pc + 2) := by
  obtain ⟨ra, ha, h⟩ := withReg_next.mp h
  refine ⟨ra, ha, ?_⟩
  cases taken <;> exact (Except.ok.inj h).symm

/-! ## The other meanings: what each one's next state is -/

theorem execMod_next {a b : Byte} {s t : State} (h : execMod a b s = .next t) :
    ∃ ra rb, reg a = .ok ra ∧ reg b = .ok rb ∧ s.reg rb ≠ 0#8 ∧ t = (s.setReg ra (modResult (s.reg ra) (s.reg rb))).advance 3 := by
  obtain ⟨ra, rb, ha, hb, h⟩ := withRegs_next.mp h
  split at h
  · cases h
  · rename_i h0
    exact ⟨ra, rb, ha, hb, h0, (Except.ok.inj h).symm⟩

theorem execCmp_next {a b : Byte} {s t : State} (h : execCmp a b s = .next t) :
    ∃ ra rb, reg a = .ok ra ∧ reg b = .ok rb ∧ t = (s.setFlags (compareFlags (s.reg ra) (s.reg rb))).advance 3 := by
  obtain ⟨ra, rb, ha, hb, h⟩ := withRegs_next.mp h
  exact ⟨ra, rb, ha, hb, (Except.ok.inj h).symm⟩

theorem execCall_eq {a : Byte} {ra : Reg} (s : State) (h : reg a = .ok ra) :
    execCall a s = if s.reg .r7 = 0#8 then .fault (.stackFault (-1))
      else .next ((s.pushed (.raw (s.pc + 2))).setPc ((s.pushed (.raw (s.pc + 2))).reg ra).toNat) := by
  rw [execCall, withReg_ok h, push_eq]
  split <;> rfl

theorem execCall_next {a : Byte} {s t : State} (h : execCall a s = .next t) :
    ∃ ra, reg a = .ok ra ∧ s.reg .r7 ≠ 0#8 ∧ t = (s.pushed (.raw (s.pc + 2))).setPc ((s.pushed (.raw (s.pc + 2))).reg ra).toNat := by
  obtain ⟨ra, ha, _⟩ := withReg_next.mp h
  rw [execCall_eq s ha] at h
  split at h
  · cases h
  · rename_i h0
    exact ⟨ra, ha, h0, (Host.Outcome.next.inj h).symm⟩

theorem execRet_eq (s : State) :
    execRet s = if s.reg .r7 = 255#8 then .fault (.stackFault 256)
      else match s.cellAt (s.reg .r7).toNat with
        | .raw n => .next (s.popped.setPc n)
        | .byte _ => .fault (.tagFault (s.reg .r7).toNat) := by
  rw [execRet, popRaw_eq]
  split
  · rfl
  · cases s.cellAt (s.reg .r7).toNat <;> rfl

theorem execRet_next {s t : State} (h : execRet s = .next t) :
    ∃ n, s.cellAt (s.reg .r7).toNat = .raw n ∧ s.reg .r7 ≠ 255#8 ∧ t = s.popped.setPc n := by
  rw [execRet_eq] at h
  split at h
  · cases h
  · rename_i h0
    split at h
    · rename_i n hn
      exact ⟨n, hn, h0, (Host.Outcome.next.inj h).symm⟩
    · cases h

theorem execInt_next {a : Byte} {s t : State} (h : execInt a s = .next t) :
    ∃ ra, reg a = .ok ra ∧ t = (if (s.reg ra).toNat ≤ 7 then raiseLine (s.reg ra).toNat s else s).advance 2 := by
  obtain ⟨ra, ha, h⟩ := withReg_next.mp h
  exact ⟨ra, ha, (Except.ok.inj h).symm⟩

theorem execLdi_next {a imm : Byte} {s t : State} (h : execLdi a imm s = .next t) :
    ∃ ra, reg a = .ok ra ∧ t = (s.setReg ra imm).advance 3 := by
  obtain ⟨ra, ha, h⟩ := withReg_next.mp h
  exact ⟨ra, ha, (Except.ok.inj h).symm⟩

theorem execLd_eq {a b : Byte} {ra rb : Reg} (s : State) (ha : reg a = .ok ra) (hb : reg b = .ok rb) :
    execLd a b s = match s.cellAt (s.reg rb).toNat with
      | .byte v => .next ((s.setReg ra v).advance 3)
      | .raw _ => .fault (.tagFault (s.reg rb).toNat) := by
  rw [execLd, withRegs_ok ha hb, readByte_byte]
  cases s.cellAt (s.reg rb).toNat <;> rfl

theorem execLd_next {a b : Byte} {s t : State} (h : execLd a b s = .next t) :
    ∃ ra rb v, reg a = .ok ra ∧ reg b = .ok rb ∧ s.cellAt (s.reg rb).toNat = .byte v ∧ t = (s.setReg ra v).advance 3 := by
  obtain ⟨ra, rb, ha, hb, _⟩ := withRegs_next.mp h
  rw [execLd_eq s ha hb] at h
  split at h
  · rename_i v hv
    exact ⟨ra, rb, v, ha, hb, hv, (Host.Outcome.next.inj h).symm⟩
  · cases h

theorem execSt_eq {a b : Byte} {ra rb : Reg} (s : State) (ha : reg a = .ok ra) (hb : reg b = .ok rb) :
    execSt a b s = .next ((s.setCell (s.reg ra).toNat (.byte (s.reg rb))).advance 3) := by
  simp [execSt, withRegs_ok ha hb, bind, Except.bind]

theorem execSt_next {a b : Byte} {s t : State} (h : execSt a b s = .next t) :
    ∃ ra rb, reg a = .ok ra ∧ reg b = .ok rb ∧ t = (s.setCell (s.reg ra).toNat (.byte (s.reg rb))).advance 3 := by
  obtain ⟨ra, rb, ha, hb, _⟩ := withRegs_next.mp h
  rw [execSt_eq s ha hb] at h
  exact ⟨ra, rb, ha, hb, (Host.Outcome.next.inj h).symm⟩

theorem execPush_eq {a : Byte} {ra : Reg} (s : State) (h : reg a = .ok ra) :
    execPush a s = if s.reg .r7 = 0#8 then .fault (.stackFault (-1))
      else .next ((s.pushed (.byte (if ra = .r7 then s.reg .r7 - 1#8 else s.reg ra))).advance 2) := by
  rw [execPush, withReg_ok h, decrementSp]
  split
  · rfl
  · simp only [bind, Except.bind, State.setReg_reg, if_true, memWrite_byte, finish_ok, State.pushed]

theorem execPush_next {a : Byte} {s t : State} (h : execPush a s = .next t) :
    ∃ ra, reg a = .ok ra ∧ s.reg .r7 ≠ 0#8 ∧ t = (s.pushed (.byte (if ra = .r7 then s.reg .r7 - 1#8 else s.reg ra))).advance 2 := by
  obtain ⟨ra, ha, _⟩ := withReg_next.mp h
  rw [execPush_eq s ha] at h
  split at h
  · cases h
  · rename_i h0
    exact ⟨ra, ha, h0, (Host.Outcome.next.inj h).symm⟩

theorem execPop_eq {a : Byte} {ra : Reg} (s : State) (h : reg a = .ok ra) :
    execPop a s = match s.cellAt (s.reg .r7).toNat with
      | .byte v => if (s.setReg ra v).reg .r7 = 255#8 then .fault (.stackFault 256) else .next ((s.setReg ra v).popped.advance 2)
      | .raw _ => .fault (.tagFault (s.reg .r7).toNat) := by
  rw [execPop, withReg_ok h, readByte_byte]
  cases s.cellAt (s.reg .r7).toNat with
  | raw n => rfl
  | byte v =>
    simp only [expectByte, bind, Except.bind, incrementSp]
    by_cases h7 : (s.setReg ra v).reg .r7 = 255#8
    · simp only [h7, if_true, finish_error]
    · simp only [h7, if_false, finish_ok, State.popped]

theorem execPop_next {a : Byte} {s t : State} (h : execPop a s = .next t) :
    ∃ ra v, reg a = .ok ra ∧ s.cellAt (s.reg .r7).toNat = .byte v ∧ t = (s.setReg ra v).popped.advance 2 := by
  obtain ⟨ra, ha, _⟩ := withReg_next.mp h
  rw [execPop_eq s ha] at h
  split at h
  · rename_i v hv
    split at h
    · cases h
    · exact ⟨ra, v, ha, hv, (Host.Outcome.next.inj h).symm⟩
  · cases h

theorem execPrn_next {a : Byte} {s t : State} (h : execPrn a s = .next t) :
    ∃ ra, reg a = .ok ra ∧ t = (s.appendPrn (decimal (s.reg ra))).advance 2 := by
  obtain ⟨ra, ha, h⟩ := withReg_next.mp h
  exact ⟨ra, ha, (Except.ok.inj h).symm⟩

theorem execPra_next {a : Byte} {s t : State} (h : execPra a s = .next t) :
    ∃ ra, reg a = .ok ra ∧ t = (s.appendAcc (s.reg ra)).advance 2 := by
  obtain ⟨ra, ha, h⟩ := withReg_next.mp h
  exact ⟨ra, ha, (Except.ok.inj h).symm⟩

end Sys2Proof.Machine
end

