-- ==== Sys2Proof/Laws/Interrupt.lean ====
section
/-!
SUPPORT. What the interrupt service, `IRET` and the poll can do, said once each.
-/

namespace Sys2Proof.Machine

/-! ## Line bits and flag words -/

theorem lineBit_getLsbD {n k : Nat} (hk : k < 8) : (lineBit n).getLsbD k = decide (k = n) := by
  rw [lineBit, trunc8, BitVec.getLsbD_ofNat, Nat.testBit_two_pow]
  simp [hk, eq_comm]

theorem raiseLine_bit (n : Nat) (s : State) {k : Nat} (hk : k < 8) :
    ((raiseLine n s).reg .r6).getLsbD k = ((s.reg .r6).getLsbD k || decide (k = n)) := by
  rw [raiseLine, State.setReg_reg, if_pos rfl, BitVec.getLsbD_or, lineBit_getLsbD hk]

theorem clearLine_bit (n : Nat) (s : State) {k : Nat} (hk : k < 8) :
    ((clearLine n s).reg .r6).getLsbD k = ((s.reg .r6).getLsbD k && decide (k ≠ n)) := by
  rw [clearLine, State.setReg_reg, if_pos rfl, BitVec.getLsbD_and, BitVec.getLsbD_not, lineBit_getLsbD hk]
  simp [hk]

/-- Saving exclusive flags and restoring the word gives them back. -/
theorem flagWord_exclusive {bits : Config.FlagBits} {f : Flags} (hb : bits.distinct) (h : f.exclusive) :
    flagsOfWord bits (flagWord bits f) = some f := by
  obtain ⟨h1, h2, h3⟩ := hb
  have inj : ∀ i j : Fin 8, i ≠ j → 2 ^ i.val ≠ 2 ^ j.val := by decide
  have pos : ∀ i : Fin 8, 2 ^ i.val ≠ 0 := by decide
  obtain ⟨l, g, e⟩ := f
  revert h
  cases l <;> cases g <;> cases e <;> simp_all [flagsOfWord, flagWord, Flags.exclusive]

theorem flagsOfWord_exclusive {bits : Config.FlagBits} {w : Nat} {f : Flags} (h : flagsOfWord bits w = some f) : f.exclusive := by
  unfold flagsOfWord at h
  repeat' split at h
  all_goals cases h
  all_goals decide

theorem flagsOfWord_none {bits : Config.FlagBits} {w : Nat} : flagsOfWord bits w = none ↔ ¬ ValidFlagWord bits w := by
  unfold flagsOfWord ValidFlagWord
  repeat' split
  all_goals simp_all

theorem compareFlags_exclusive (x y : Byte) : (compareFlags x y).exclusive := by
  unfold compareFlags
  split
  · decide
  · split <;> decide

/-! ## The least active line -/

theorem lowestLine_some {x : Byte} {n : Nat} (hn : n < 8) (hx : x.getLsbD n = true) (hmin : ∀ m, m < n → x.getLsbD m = false) :
    lowestLine x = some n := by
  have h : ∀ m, m < n → x.getLsbD m = false := hmin
  unfold lowestLine
  have hcases : n = 0 ∨ n = 1 ∨ n = 2 ∨ n = 3 ∨ n = 4 ∨ n = 5 ∨ n = 6 ∨ n = 7 := by omega
  rcases hcases with rfl | rfl | rfl | rfl | rfl | rfl | rfl | rfl
  · simp only [List.find?_cons, hx]
  · simp only [List.find?_cons, h 0 (by decide), hx]
  · simp only [List.find?_cons, h 0 (by decide), h 1 (by decide), hx]
  · simp only [List.find?_cons, h 0 (by decide), h 1 (by decide), h 2 (by decide), hx]
  · simp only [List.find?_cons, h 0 (by decide), h 1 (by decide), h 2 (by decide), h 3 (by decide), hx]
  · simp only [List.find?_cons, h 0 (by decide), h 1 (by decide), h 2 (by decide), h 3 (by decide), h 4 (by decide), hx]
  · simp only [List.find?_cons, h 0 (by decide), h 1 (by decide), h 2 (by decide), h 3 (by decide), h 4 (by decide), h 5 (by decide), hx]
  · simp only [List.find?_cons, h 0 (by decide), h 1 (by decide), h 2 (by decide), h 3 (by decide), h 4 (by decide), h 5 (by decide), h 6 (by decide), hx]

theorem lowestLine_none {x : Byte} (h : ∀ n, n < 8 → x.getLsbD n = false) : lowestLine x = none := by
  unfold lowestLine
  rw [List.find?_eq_none]
  intro n hn
  have hn8 : n < 8 := by
    simp only [List.mem_cons, List.not_mem_nil, or_false] at hn
    omega
  simpa using h n hn8

theorem lowestLine_spec {x : Byte} {n : Nat} (h : lowestLine x = some n) : n < 8 ∧ x.getLsbD n = true := by
  unfold lowestLine at h
  refine ⟨?_, by simpa using List.find?_some h⟩
  have hn := List.mem_of_find?_eq_some h
  simp only [List.mem_cons, List.not_mem_nil, or_false] at hn
  omega

/-! ## The service -/

/-- The state in which the service reads the vector slot: the frame pushed, `x[0]` to `x[6]` zero, `IE` false. -/
structure Framed (n : Nat) (s p : State) : Prop where
  savedPc : p.cellAt ((s.reg .r7).toNat - 1) = .raw s.pc
  savedFlags : p.cellAt ((s.reg .r7).toNat - 2) = .raw (flagWord s.params.flagBits s.fl)
  savedReg : ∀ i (h : i < savedRegs.length), p.cellAt ((s.reg .r7).toNat - 3 - i) = .byte ((clearLine n s).reg savedRegs[i])
  cells : ∀ a, (a < (s.reg .r7).toNat - 9 ∨ (s.reg .r7).toNat ≤ a) → p.cellAt a = s.cellAt a
  zeroed : ∀ r, r ≠ .r7 → p.reg r = 0#8
  sp : (p.reg .r7).toNat = (s.reg .r7).toNat - 9
  rest : (s.setIe false).SameRest p

/-- Everything `Service(n)` can do (spec/60_exceptions.md R187). -/
theorem service_spec (n : Nat) (hn : n < 8) (s : State) :
    ((s.reg .r7).toNat < 9 → service n s = .error (.stackFault (-1))) ∧
    (9 ≤ (s.reg .r7).toNat → ∃ p, Framed n s p ∧
      service n s = (expectByte (s.params.vectorBase.val + n) (p.cellAt (s.params.vectorBase.val + n))).map (fun h => p.setPc h.toNat)) := by
  have hs1 : (((clearLine n s).setIe false).reg .r7) = s.reg .r7 := by simp [clearLine]
  by_cases h1 : s.reg .r7 = 0#8
  · refine ⟨fun _ => ?_, fun h => absurd h (by simp [h1])⟩
    simp [service, push_eq, clearLine, h1, bind, Except.bind]
  have e1 := Byte.toNat_sub_one h1
  by_cases h2 : s.reg .r7 - 1#8 = 0#8
  · have : (s.reg .r7 - 1#8).toNat = 0 := by rw [h2]; rfl
    refine ⟨fun _ => ?_, fun h => absurd h (by omega)⟩
    simp [service, push_eq, clearLine, h1, h2, bind, Except.bind]
  have e2 := Byte.toNat_sub_one h2
  obtain ⟨q, hq⟩ : ∃ q, q = (((clearLine n s).setIe false).pushed (.raw s.pc)).pushed (.raw (flagWord s.params.flagBits s.fl)) := ⟨_, rfl⟩
  have hq7 : (q.reg .r7).toNat = (s.reg .r7).toNat - 2 := by
    rw [hq]
    simp only [State.pushed_reg, if_true, hs1]
    omega
  have hqr : ∀ r, r ≠ .r7 → q.reg r = (clearLine n s).reg r := fun r hr => by rw [hq]; simp [hr]
  have hservice : service n s = (do
      let s4 ← pushRegs savedRegs q
      let handler ← readByte ((zeroRegs savedRegs s4).params.vectorBase.val + n) (zeroRegs savedRegs s4)
      .ok ((zeroRegs savedRegs s4).setPc handler.toNat)) := by
    rw [hq]
    simp [service, push_eq, clearLine, h1, h2, bind, Except.bind, State.pushed]
  have h7 : Reg.r7 ∉ savedRegs := by decide
  obtain ⟨hf, ho⟩ := pushRegs_spec savedRegs h7 q
  rw [hq7] at hf ho
  have hlen : savedRegs.length = 7 := rfl
  refine ⟨fun h => ?_, fun h => ?_⟩
  · have hlt : (s.reg .r7).toNat - 2 < savedRegs.length := by omega
    rw [hservice, hf hlt]
    rfl
  · have hge : savedRegs.length ≤ (s.reg .r7).toNat - 2 := by omega
    obtain ⟨t, ht, t7, tr, tc, tout, trest⟩ := ho hge
    clear hf ho
    obtain ⟨zr, zc, zrest⟩ := zeroRegs_spec savedRegs t
    have hqrest : (s.setIe false).SameRest q := by rw [hq]; rfl
    have hrest := (hqrest.trans trest).trans zrest
    have hqc : ∀ a, q.cellAt a = if a = (s.reg .r7).toNat - 2 then .raw (flagWord s.params.flagBits s.fl) else if a = (s.reg .r7).toNat - 1 then .raw s.pc
        else s.cellAt a := fun a => by
      rw [hq]
      simp only [State.pushed_cellAt, State.pushed_reg, if_true, hs1, e2, e1]
      have : (s.reg .r7).toNat - 1 - 1 = (s.reg .r7).toNat - 2 := by omega
      rw [this]
      rfl
    refine ⟨zeroRegs savedRegs t, ⟨?_, ?_, fun i hi => ?_, fun a ha => ?_, fun r hr => ?_, ?_, hrest⟩, ?_⟩
    · rw [zc, tout _ (by omega), hqc, if_neg (by omega), if_pos rfl]
    · rw [zc, tout _ (by omega), hqc, if_pos rfl]
    · have hne : savedRegs[i] ≠ .r7 := fun e => h7 (e ▸ List.getElem_mem hi)
      have := tc i hi
      rw [show (s.reg .r7).toNat - 2 - 1 - i = (s.reg .r7).toNat - 3 - i by omega] at this
      rw [zc, this, hqr _ hne]
    · rw [zc, tout a (by omega), hqc, if_neg (by omega), if_neg (by omega)]
    · rw [zr, if_pos]
      cases r <;> first | decide | exact absurd rfl hr
    · rw [zr, if_neg h7, t7]
      omega
    · have hpar : (zeroRegs savedRegs t).params = s.params := hrest.fields.2.2.2.2.2.2.1
      have hbase : s.params.vectorBase.val + n ≤ 255 := by
        have := s.params.vectorBase.isLt
        omega
      rw [hservice, ht]
      simp only [bind, Except.bind, hpar, readByte, memRead_of_le _ hbase]
      cases expectByte (s.params.vectorBase.val + n) ((zeroRegs savedRegs t).cellAt (s.params.vectorBase.val + n)) <;> rfl

/-- A service that completes. -/
theorem service_ok {n : Nat} (hn : n < 8) {s t : State} (h : service n s = .ok t) :
    9 ≤ (s.reg .r7).toNat ∧ ∃ p b, Framed n s p ∧ p.cellAt (s.params.vectorBase.val + n) = .byte b ∧ t = p.setPc b.toNat := by
  obtain ⟨hf, ho⟩ := service_spec n hn s
  rcases Nat.lt_or_ge (s.reg .r7).toNat 9 with hlt | hge
  · rw [hf hlt] at h
    cases h
  · obtain ⟨p, hp, hs⟩ := ho hge
    rw [hs] at h
    cases hc : p.cellAt (s.params.vectorBase.val + n) with
    | raw k =>
      rw [hc] at h
      cases h
    | byte b =>
      rw [hc] at h
      exact ⟨hge, p, b, hp, hc, (Except.ok.inj h).symm⟩

/-! ## `IRET` -/

/-- `IRET` on a fitting frame (spec/42_control_flow.md R141). -/
theorem interruptReturn_ok (s : State) (b : Nat → Byte) (f : Flags) (w n : Nat) (hsp : (s.reg .r7).toNat ≤ 246)
    (hb : ∀ i, i < 7 → s.cellAt ((s.reg .r7).toNat + i) = .byte (b i))
    (hw : s.cellAt ((s.reg .r7).toNat + 7) = .raw w) (hf : flagsOfWord s.params.flagBits w = some f)
    (hn : s.cellAt ((s.reg .r7).toNat + 8) = .raw n) :
    ∃ t, interruptReturn s = .ok t ∧ t.pc = n ∧ t.fl = f ∧ t.ie = true ∧ (t.reg .r7).toNat = (s.reg .r7).toNat + 9 ∧
      (∀ i (h : i < savedRegs.reverse.length), t.reg savedRegs.reverse[i] = b i) ∧ (∀ a, t.cellAt a = s.cellAt a) ∧
      t = { s with mem := t.mem, regs := t.regs, pc := n, fl := f, ie := true } := by
  have h7 : Reg.r7 ∉ savedRegs.reverse := by decide
  have hlen : savedRegs.reverse.length = 7 := rfl
  obtain ⟨u, hu, u7, _, ur, uc, urest⟩ := popRegs_ok savedRegs.reverse h7 (by decide) s b (by omega) (fun i hi => hb i (by omega))
  rw [hlen] at u7
  have n1 : u.reg .r7 ≠ 255#8 := Byte.ne_max_of_toNat (by omega)
  have e1 := Byte.toNat_add_one n1
  have n2 : u.reg .r7 + 1#8 ≠ 255#8 := Byte.ne_max_of_toNat (by omega)
  have e2 := Byte.toNat_add_one n2
  have c1 : u.cellAt (u.reg .r7).toNat = .raw w := by rw [uc, u7, hw]
  have c2 : u.cellAt (u.reg .r7 + 1#8).toNat = .raw n := by rw [uc, e1, u7, ← hn]
  refine ⟨(((u.popped.popped).setFlags f).setPc n).setIe true, ?_, rfl, rfl, rfl, ?_, fun i hi => ?_, fun a => ?_, ?_⟩
  · simp only [interruptReturn, hu, popRaw_eq, bind, Except.bind, n1, if_false, c1, hf, State.popped_reg, if_true, n2, State.popped_cellAt, c2]
  · simp only [State.setIe_reg, State.setPc_reg, State.setFlags_reg, State.popped_reg, if_true]
    omega
  · have hne : savedRegs.reverse[i] ≠ .r7 := fun e => h7 (e ▸ List.getElem_mem hi)
    simp only [State.setIe_reg, State.setPc_reg, State.setFlags_reg, State.popped_reg, hne, if_false]
    exact ur i hi
  · exact uc a
  · have := urest
    unfold State.SameRest at this
    simp only [State.setIe, State.setPc, State.setFlags, State.popped, State.setReg]
    rw [this]

/-- Whatever `IRET` completes with. -/
theorem interruptReturn_next {s t : State} (h : interruptReturn s = .ok t) :
    ∃ u n f w, popRegs savedRegs.reverse s = .ok u ∧ u.cellAt (u.reg .r7).toNat = .raw w ∧ flagsOfWord s.params.flagBits w = some f ∧
      u.popped.cellAt (u.popped.reg .r7).toNat = .raw n ∧ t = ((u.popped.popped.setFlags f).setPc n).setIe true := by
  unfold interruptReturn at h
  rw [Except.bind_eq_ok] at h
  obtain ⟨u, hu, h⟩ := h
  rw [Except.bind_eq_ok] at h
  obtain ⟨⟨w, s2⟩, hw, h⟩ := h
  rw [popRaw_eq] at hw
  split at hw
  · cases hw
  split at hw
  · rename_i w' hc
    cases hw
    dsimp only at h
    split at h
    · cases h
    · rename_i f hf
      rw [Except.bind_eq_ok] at h
      obtain ⟨⟨n, s3⟩, hn, h⟩ := h
      rw [popRaw_eq] at hn
      split at hn
      · cases hn
      split at hn
      · rename_i n' hc'
        cases hn
        exact ⟨u, n, f, w, hu, hc, hf, hc', (Except.ok.inj h).symm⟩
      · cases hn
  · cases hw

/-- `popRegs` leaves everything but registers. -/
theorem popRegs_rest (rs : List Reg) {s t : State} (h : popRegs rs s = .ok t) : (∀ a, t.cellAt a = s.cellAt a) ∧ t.mem = s.mem ∧ s.SameRest t := by
  induction rs generalizing s with
  | nil =>
    cases h
    exact ⟨fun _ => rfl, rfl, .refl _⟩
  | cons r rs ih =>
    unfold popRegs at h
    rw [Except.bind_eq_ok] at h
    obtain ⟨⟨b, s1⟩, hb, h⟩ := h
    rw [popByte_eq] at hb
    split at hb
    · cases hb
    split at hb
    · cases hb
      obtain ⟨h1, h2, h3⟩ := ih h
      exact ⟨h1, h2, ((State.sameRest_popped s).trans (State.sameRest_setReg _ _ _)).trans h3⟩
    · cases hb

/-- What `IRET` leaves alone, and where its flags and `pc` come from. -/
theorem interruptReturn_rest {s t : State} (h : interruptReturn s = .ok t) :
    t.mem = s.mem ∧ t.ie = true ∧ t.acc = s.acc ∧ t.prnOut = s.prnOut ∧ t.status = s.status ∧ t.params = s.params ∧ t.draws = s.draws ∧
      t.polls = s.polls ∧ t.fl.exclusive ∧ ∃ a, s.cellAt a = .raw t.pc := by
  obtain ⟨u, n, f, w, hu, _, hf, hn, rfl⟩ := interruptReturn_next h
  obtain ⟨h1, h2, h3⟩ := popRegs_rest _ hu
  obtain ⟨_, _, _, f4, f5, f6, f7, f8, f9⟩ := h3.fields
  exact ⟨h2, rfl, f4, f5, f6, f7, f8, f9, flagsOfWord_exclusive hf, _, (h1 _).symm.trans hn⟩

/-! ## The poll -/

/-- A service that completes leaves these alone. -/
theorem service_rest {n : Nat} (hn : n < 8) {s t : State} (h : service n s = .ok t) :
    t.ie = false ∧ t.fl = s.fl ∧ t.acc = s.acc ∧ t.prnOut = s.prnOut ∧ t.status = s.status ∧ t.params = s.params ∧ t.draws = s.draws ∧
      t.polls = s.polls ∧ t.pc ≤ 255 := by
  obtain ⟨_, p, b, hp, _, rfl⟩ := service_ok hn h
  obtain ⟨f1, f2, f3, f4, f5, f6, f7, f8, f9⟩ := hp.rest.fields
  exact ⟨f3, f1, f4, f5, f6, f7, f8, f9, Byte.toNat_le b⟩

/-- Everything the third step of a poll can do. -/
theorem serviceActive_ok {s t : State} (h : serviceActive s = .ok t) : t = s ∨ ∃ n, n < 8 ∧ serviceActive s = service n s ∧ service n s = .ok t := by
  unfold serviceActive at h ⊢
  split at h
  · cases h
    exact .inl rfl
  · rename_i n hn
    exact .inr ⟨n, (lowestLine_spec hn).1, rfl, h⟩

/-- The state from which a poll that is not cancelled services. -/
def State.polled (s : State) : State :=
  let s1 := pollTimer s.draw.tick s.consumeDraw
  match s.draw.key with
  | none => s1
  | some c => raiseLine 1 (s1.setCell s1.params.keyAddr.toNat (.byte c))

theorem pollTimer_params (t : Bool) (s : State) : (pollTimer t s).params = s.params := by
  cases t <;> rfl

/-- Everything `Poll` can do (spec/60_exceptions.md R182). -/
theorem poll_eq (s : State) :
    poll s = if s.draw.key = some s.params.cancelKey then .ok ((pollTimer s.draw.tick s.consumeDraw).setStatus .cancelled)
      else serviceActive s.polled := by
  unfold poll pollKeyboard State.polled
  cases hk : s.draw.key with
  | none => simp
  | some c =>
    simp only [pollTimer_params, State.consumeDraw_params, Option.some.injEq]
    split
    · rfl
    · simp [bind, Except.bind]

/-- Everything a poll that answers has left: nothing changed; or the recorded state `u`, as it is or as one service left it. -/
theorem pollPhase_ok {s t : State} (h : pollPhase s = .ok t) :
    t = s ∨ (s.ie = true ∧ ∃ u : State, (t = u ∨ ∃ n, n < 8 ∧ serviceActive u = service n u ∧ service n u = .ok t) ∧
      u.fl = s.fl ∧ u.pc = s.pc ∧ u.ie = s.ie ∧ u.acc = s.acc ∧ u.prnOut = s.prnOut ∧ u.params = s.params ∧
      (u.mem = s.mem ∨ ∃ c, u.mem = Memory.write s.mem s.params.keyAddr.toNat (.byte c))) := by
  unfold pollPhase at h
  split at h
  rotate_left 1
  · cases h
    exact .inl rfl
  rename_i hi
  refine .inr ⟨hi, ?_⟩
  rw [poll_eq] at h
  split at h
  · cases h
    refine ⟨_, .inl rfl, ?_⟩
    cases s.draw.tick <;> exact ⟨rfl, rfl, rfl, rfl, rfl, rfl, .inl rfl⟩
  · refine ⟨s.polled, serviceActive_ok h, ?_⟩
    unfold State.polled
    cases s.draw.key <;> cases s.draw.tick
    · exact ⟨rfl, rfl, rfl, rfl, rfl, rfl, .inl rfl⟩
    · exact ⟨rfl, rfl, rfl, rfl, rfl, rfl, .inl rfl⟩
    · exact ⟨rfl, rfl, rfl, rfl, rfl, rfl, .inr ⟨_, rfl⟩⟩
    · exact ⟨rfl, rfl, rfl, rfl, rfl, rfl, .inr ⟨_, rfl⟩⟩

end Sys2Proof.Machine
end

