-- ==== Sys2Proof/Laws/Fetch.lean ====
section
/-!
SUPPORT. What the operand fetch, the fetch and the step can do, said once each.
-/

namespace Sys2Proof.Machine

/-- The operand fetch answers exactly the Byte cells there are (spec/40_fetch_decode_dispatch.md R94). -/
theorem fetchOperands_eq_ok (s : State) (count a : Nat) (bytes : List Byte) :
    fetchOperands count a s = .ok bytes ↔ bytes.length = count ∧ BytesAt s a bytes := by
  induction count generalizing a bytes with
  | zero => cases bytes <;> simp [fetchOperands, BytesAt]
  | succ count ih =>
    unfold fetchOperands
    rcases Nat.lt_or_ge 255 a with h | h
    · rw [memRead_of_gt s h]
      cases bytes with
      | nil => simp [bind, Except.bind]
      | cons b bs => simp [bind, Except.bind, BytesAt, Nat.not_le.mpr h]
    · rw [memRead_of_le s h]
      cases hc : s.cellAt a with
      | raw n =>
        cases bytes with
        | nil => simp [bind, Except.bind]
        | cons b bs => simp [bind, Except.bind, BytesAt, hc]
      | byte b =>
        simp only [bind, Except.bind]
        cases bytes with
        | nil =>
          cases fetchOperands count (a + 1) s <;> simp
        | cons b' bs =>
          have := ih (a + 1) bs
          cases hr : fetchOperands count (a + 1) s with
          | error e => simp_all [BytesAt]
          | ok rest =>
            rw [hr] at this
            simp only [Except.ok.injEq, List.cons.injEq, List.length_cons, Nat.add_right_cancel_iff, BytesAt, hc, Cell.byte.injEq] at this ⊢
            constructor
            · rintro ⟨rfl, h2⟩
              exact ⟨(this.mp h2).1, h, rfl, (this.mp h2).2⟩
            · rintro ⟨h1, _, rfl, h2⟩
              exact ⟨rfl, this.mpr ⟨h1, h2⟩⟩

/-- The first operand that is out of memory or Raw decides the fault. -/
theorem fetchOperands_error (s : State) (count a : Nat) (before : List Byte) (hlen : before.length < count) (hb : BytesAt s a before) :
    (255 < a + before.length → fetchOperands count a s = .error (.memoryFault (a + before.length))) ∧
    (∀ n, a + before.length ≤ 255 → s.cellAt (a + before.length) = .raw n → fetchOperands count a s = .error (.decodeError (a + before.length))) := by
  induction before generalizing count a with
  | nil =>
    obtain ⟨count, rfl⟩ : ∃ c, count = c + 1 := ⟨count - 1, by simp at hlen; omega⟩
    refine ⟨fun h => ?_, fun n h hn => ?_⟩
    · unfold fetchOperands
      rw [memRead_of_gt s (by simpa using h)]
      rfl
    · simp only [List.length_nil, Nat.add_zero] at h hn
      unfold fetchOperands
      rw [memRead_of_le s h]
      simp [bind, Except.bind, hn]
  | cons b bs ih =>
    obtain ⟨count, rfl⟩ : ∃ c, count = c + 1 := ⟨count - 1, by simp at hlen; omega⟩
    obtain ⟨ha, hc, hb⟩ := hb
    have := ih count (a + 1) (by simpa using hlen) hb
    have hadd : a + (b :: bs).length = a + 1 + bs.length := by simp; omega
    rw [hadd]
    unfold fetchOperands
    rw [memRead_of_le s ha]
    simp only [bind, Except.bind, hc]
    exact ⟨fun h => by rw [this.1 h], fun n h hn => by rw [this.2 n h hn]⟩

theorem BytesAt_bound {s : State} {a : Nat} {bytes : List Byte} (h : BytesAt s a bytes) (hne : bytes ≠ []) : a + bytes.length ≤ 256 := by
  induction bytes generalizing a with
  | nil => exact absurd rfl hne
  | cons b bs ih =>
    obtain ⟨h1, _, h3⟩ := h
    cases bs with
    | nil => simp; omega
    | cons c cs =>
      have := ih h3 (by simp)
      simp only [List.length_cons] at this ⊢
      omega

/-- The fetch on a Byte cell whose operands are there. -/
theorem fetch_byte {s : State} {b : Byte} {operands : List Byte} (hpc : s.pc ≤ 255) (hc : s.cellAt s.pc = .byte b)
    (ho : fetchOperands (operandCount b) (s.pc + 1) s = .ok operands) :
    fetch s = match decode s.params.opMap (b :: operands) with
      | .ok (i, _) => .ok (some i)
      | .error _ => .error (.decodeError b.toNat) := by
  cases hd : decode s.params.opMap (b :: operands) <;> simp only [fetch, memRead_of_le s hpc, bind, Except.bind, hc, ho, hd]

/-- What a fetch that finds an instruction has read: its bytes stand at `pc`, and end inside memory. -/
theorem fetch_instr {s : State} {i : Instr} (h : fetch s = .ok (some i)) :
    ∃ b operands rest, s.pc ≤ 255 ∧ s.cellAt s.pc = .byte b ∧ operands.length = operandCount b ∧ BytesAt s (s.pc + 1) operands ∧
      decode s.params.opMap (b :: operands) = .ok (i, rest) ∧ s.pc + 1 + operandCount b ≤ 256 := by
  rcases Nat.lt_or_ge 255 s.pc with hpc | hpc
  · simp [fetch, memRead_of_gt s hpc, bind, Except.bind] at h
  · cases hc : s.cellAt s.pc with
    | raw n => simp [fetch, memRead_of_le s hpc, bind, Except.bind, hc] at h
    | byte b =>
      cases ho : fetchOperands (operandCount b) (s.pc + 1) s with
      | error e => simp [fetch, memRead_of_le s hpc, bind, Except.bind, hc, ho] at h
      | ok operands =>
        rw [fetch_byte hpc hc ho] at h
        have ⟨hlen, hb⟩ := (fetchOperands_eq_ok s _ _ _).mp ho
        cases hd : decode s.params.opMap (b :: operands) with
        | error e => simp [hd] at h
        | ok r =>
          obtain ⟨j, rest⟩ := r
          simp only [hd, Except.ok.injEq, Option.some.injEq] at h
          subst h
          refine ⟨b, operands, rest, hpc, rfl, hlen, hb, hd, ?_⟩
          cases operands with
          | nil =>
            simp at hlen
            omega
          | cons c cs =>
            have := BytesAt_bound hb (by simp)
            omega

/-- Placing bytes to be fetched keeps the canonical form of memory. -/
theorem placeBytes_wf (bytes : List Byte) (a : Nat) (s : State) (hs : Memory.wf s.mem) : Memory.wf (placeBytes bytes a s).mem := by
  induction bytes generalizing a s with
  | nil => exact hs
  | cons b bs ih =>
    refine ih (a + 1) _ ?_
    split
    · rename_i ha
      have ha' : a < 256 := by omega
      exact Memory.wf_write (c := .byte b) hs ha'
    · exact hs

end Sys2Proof.Machine
end

