-- ==== Sys2Proof/Laws/Exec.lean ====
section
/-!
SUPPORT. What no instruction touches, what an instruction can do to memory, and what a step does after its poll.
-/

namespace Sys2Proof.Machine

/-- No instruction writes the run status, the parameters or the environment's draws. -/
theorem exec_rest {i : Instr} {s t : State} (h : exec i s = .next t) :
    t.status = s.status ∧ t.params = s.params ∧ t.draws = s.draws ∧ t.polls = s.polls := by
  cases i with
  | add | sub | mul | div | and | or | xor | shl | shr =>
    obtain ⟨_, _, _, _, rfl⟩ := aluBinary_next h
    exact ⟨rfl, rfl, rfl, rfl⟩
  | inc | dec | not =>
    obtain ⟨_, _, rfl⟩ := aluUnary_next h
    exact ⟨rfl, rfl, rfl, rfl⟩
  | jmp | jeq | jne | jgt | jge | jlt | jle =>
    obtain ⟨_, _, rfl⟩ := jumpIf_next h
    exact ⟨rfl, rfl, rfl, rfl⟩
  | mod =>
    obtain ⟨_, _, _, _, _, rfl⟩ := execMod_next h
    exact ⟨rfl, rfl, rfl, rfl⟩
  | cmp =>
    obtain ⟨_, _, _, _, rfl⟩ := execCmp_next h
    exact ⟨rfl, rfl, rfl, rfl⟩
  | call =>
    obtain ⟨_, _, _, rfl⟩ := execCall_next h
    exact ⟨rfl, rfl, rfl, rfl⟩
  | ret =>
    obtain ⟨_, _, _, rfl⟩ := execRet_next h
    exact ⟨rfl, rfl, rfl, rfl⟩
  | int =>
    obtain ⟨_, _, rfl⟩ := execInt_next h
    split <;> exact ⟨rfl, rfl, rfl, rfl⟩
  | iret =>
    have h' := interruptReturn_rest (finish_eq_next.mp h)
    exact ⟨h'.2.2.2.2.1, h'.2.2.2.2.2.1, h'.2.2.2.2.2.2.1, h'.2.2.2.2.2.2.2.1⟩
  | nop | hlt =>
    cases h
    exact ⟨rfl, rfl, rfl, rfl⟩
  | ldi =>
    obtain ⟨_, _, rfl⟩ := execLdi_next h
    exact ⟨rfl, rfl, rfl, rfl⟩
  | ld =>
    obtain ⟨_, _, _, _, _, _, rfl⟩ := execLd_next h
    exact ⟨rfl, rfl, rfl, rfl⟩
  | st =>
    obtain ⟨_, _, _, _, rfl⟩ := execSt_next h
    exact ⟨rfl, rfl, rfl, rfl⟩
  | push =>
    obtain ⟨_, _, _, rfl⟩ := execPush_next h
    exact ⟨rfl, rfl, rfl, rfl⟩
  | pop =>
    obtain ⟨_, _, _, _, rfl⟩ := execPop_next h
    exact ⟨rfl, rfl, rfl, rfl⟩
  | prn =>
    obtain ⟨_, _, rfl⟩ := execPrn_next h
    exact ⟨rfl, rfl, rfl, rfl⟩
  | pra =>
    obtain ⟨_, _, rfl⟩ := execPra_next h
    exact ⟨rfl, rfl, rfl, rfl⟩

/-- What an instruction can do to memory: nothing, one Byte cell, or, `CALL` alone, the Raw cell of its return address. -/
theorem exec_mem {i : Instr} {s t : State} (h : exec i s = .next t) :
    t.mem = s.mem ∨ (∃ a b : Byte, t.mem = Memory.write s.mem a.toNat (.byte b)) ∨
      ((∃ op, i = .call op) ∧ t.mem = Memory.write s.mem (t.reg .r7).toNat (.raw (s.pc + 2))) := by
  cases i with
  | add | sub | mul | div | and | or | xor | shl | shr =>
    obtain ⟨_, _, _, _, rfl⟩ := aluBinary_next h
    exact .inl rfl
  | inc | dec | not =>
    obtain ⟨_, _, rfl⟩ := aluUnary_next h
    exact .inl rfl
  | jmp | jeq | jne | jgt | jge | jlt | jle =>
    obtain ⟨_, _, rfl⟩ := jumpIf_next h
    exact .inl rfl
  | mod =>
    obtain ⟨_, _, _, _, _, rfl⟩ := execMod_next h
    exact .inl rfl
  | cmp =>
    obtain ⟨_, _, _, _, rfl⟩ := execCmp_next h
    exact .inl rfl
  | call =>
    obtain ⟨_, _, _, rfl⟩ := execCall_next h
    exact .inr (.inr ⟨⟨_, rfl⟩, by simp [State.pushed]⟩)
  | ret =>
    obtain ⟨_, _, _, rfl⟩ := execRet_next h
    exact .inl rfl
  | int =>
    obtain ⟨_, _, rfl⟩ := execInt_next h
    split <;> exact .inl rfl
  | iret =>
    have h' := interruptReturn_rest (finish_eq_next.mp h)
    exact .inl h'.1
  | nop | hlt =>
    cases h
    exact .inl rfl
  | ldi =>
    obtain ⟨_, _, rfl⟩ := execLdi_next h
    exact .inl rfl
  | ld =>
    obtain ⟨_, _, _, _, _, _, rfl⟩ := execLd_next h
    exact .inl rfl
  | st =>
    obtain ⟨_, _, _, _, rfl⟩ := execSt_next h
    exact .inr (.inl ⟨_, _, rfl⟩)
  | push =>
    obtain ⟨_, _, _, rfl⟩ := execPush_next h
    exact .inr (.inl ⟨_, _, rfl⟩)
  | pop =>
    obtain ⟨_, _, _, _, rfl⟩ := execPop_next h
    exact .inl rfl
  | prn =>
    obtain ⟨_, _, rfl⟩ := execPrn_next h
    exact .inl rfl
  | pra =>
    obtain ⟨_, _, rfl⟩ := execPra_next h
    exact .inl rfl

/-- A step of a running machine whose poll leaves it running is the halt check, the fetch and the instruction. -/
theorem step_of_poll {s s1 : State} (hs : s.status = .running) (hp : pollPhase s = .ok s1) (h1 : s1.status = .running) :
    step s = fetchAndExecute s1 := by
  simp [step, hs, hp, h1]

/-- Everything a step that answers a next state has done (spec/40_fetch_decode_dispatch.md R90): the run had ended already; or the poll ended it; or
the poll left the machine running and then it halted or executed one instruction. -/
theorem step_cases {s t : State} (h : step s = .next t) :
    (s.status ≠ .running ∧ t = s) ∨
    (s.status = .running ∧ ∃ s1, pollPhase s = .ok s1 ∧
      ((s1.status ≠ .running ∧ t = s1) ∨
       (s1.status = .running ∧ fetch s1 = .ok none ∧ t = s1.setStatus .halted) ∨
       (s1.status = .running ∧ ∃ i, fetch s1 = .ok (some i) ∧ exec i s1 = .next t))) := by
  unfold step at h
  split at h
  · rename_i hs
    refine .inr ⟨hs, ?_⟩
    split at h
    · cases h
    · rename_i s1 hp
      refine ⟨s1, hp, ?_⟩
      split at h
      · rename_i h1
        unfold fetchAndExecute at h
        split at h
        · cases h
        · rename_i hf
          exact .inr (.inl ⟨h1, hf, (Host.Outcome.next.inj h).symm⟩)
        · rename_i i hf
          exact .inr (.inr ⟨h1, i, hf, h⟩)
      · rename_i h1
        exact .inl ⟨h1, (Host.Outcome.next.inj h).symm⟩
  · rename_i hs
    exact .inl ⟨by simp [hs], (Host.Outcome.next.inj h).symm⟩
  · rename_i hs
    exact .inl ⟨by simp [hs], (Host.Outcome.next.inj h).symm⟩
  · cases h

end Sys2Proof.Machine
end

