-- ==== Sys2Proof/Laws/PerInstr.lean ====
section
/-!
SUPPORT. The family OpcodeFields: for every instruction, the fields of its opcode byte announce its operands and select it in the lookup
(spec/30_encoding.md R61, R64, R65), under every valid `OPMAP`, one lemma per constructor.
-/

namespace Sys2Proof.Laws.OpcodeFields

/-- The opcode byte's bits 7:6 are the number of operand bytes, and the lookup on the opcode byte and the operand bytes gives the instruction. -/
def Statement (i : Instr) : Prop :=
  ∀ m : Config.OpMap, operandCount (i.opcode m) = i.operandBytes.length ∧
    (OpMap.valid m → ∀ rest : List Byte,
      lookup m (i.opcode m) ((i.operandBytes ++ rest).getD 0 0) ((i.operandBytes ++ rest).getD 1 0) = some i)

/-- The family, over every instruction. -/
theorem all (i : Instr) : Statement i := fun m => ⟨(i.opcode_fields m).1, fun hm rest => lookup_opcode hm i rest⟩

theorem add (a b : Byte) : Statement (.add a b) := all _

theorem sub (a b : Byte) : Statement (.sub a b) := all _

theorem mul (a b : Byte) : Statement (.mul a b) := all _

theorem div (a b : Byte) : Statement (.div a b) := all _

theorem mod (a b : Byte) : Statement (.mod a b) := all _

theorem inc (a : Byte) : Statement (.inc a) := all _

theorem dec (a : Byte) : Statement (.dec a) := all _

theorem cmp (a b : Byte) : Statement (.cmp a b) := all _

theorem and (a b : Byte) : Statement (.and a b) := all _

theorem not (a : Byte) : Statement (.not a) := all _

theorem or (a b : Byte) : Statement (.or a b) := all _

theorem xor (a b : Byte) : Statement (.xor a b) := all _

theorem shl (a b : Byte) : Statement (.shl a b) := all _

theorem shr (a b : Byte) : Statement (.shr a b) := all _

theorem call (a : Byte) : Statement (.call a) := all _

theorem ret : Statement .ret := all _

theorem int (a : Byte) : Statement (.int a) := all _

theorem iret : Statement .iret := all _

theorem jmp (a : Byte) : Statement (.jmp a) := all _

theorem jeq (a : Byte) : Statement (.jeq a) := all _

theorem jne (a : Byte) : Statement (.jne a) := all _

theorem jgt (a : Byte) : Statement (.jgt a) := all _

theorem jlt (a : Byte) : Statement (.jlt a) := all _

theorem jle (a : Byte) : Statement (.jle a) := all _

theorem jge (a : Byte) : Statement (.jge a) := all _

theorem nop : Statement .nop := all _

theorem hlt : Statement .hlt := all _

theorem ldi (a imm : Byte) : Statement (.ldi a imm) := all _

theorem ld (a b : Byte) : Statement (.ld a b) := all _

theorem st (a b : Byte) : Statement (.st a b) := all _

theorem push (a : Byte) : Statement (.push a) := all _

theorem pop (a : Byte) : Statement (.pop a) := all _

theorem prn (a : Byte) : Statement (.prn a) := all _

theorem pra (a : Byte) : Statement (.pra a) := all _

end Sys2Proof.Laws.OpcodeFields
end

