-- ==== Sys2Proof/Tests/Slice0.lean ====
section
/-!
SUPPORT. The model's own tests, each about one step or one operation. Expected values come from the spec's vectors (spec/95_test_vectors.md, named V1
to V89 there), from the encodings of spec/41_alu.md, 42_control_flow.md and 43_core.md, or by hand from the rule named. After them the witnesses: for
every obligation with hypotheses, a concrete input that meets them.
-/

namespace Sys2Proof.Tests

open Sys2Proof.Machine

/-! ## Helpers -/

/-- What the decoder reads from bytes under the default `OPMAP`, with the bytes left over. -/
def decoded (bytes : List Byte) : Option (Instr × List Byte) :=
  match decode defaultOpMap bytes with
  | .ok r => some r
  | .error _ => none

/-- The reset state with `x[0]`, `x[1]`, `x[2]` set. -/
def withX (x0 x1 x2 : Byte) : State := { State.reset with regs := { State.reset.regs with r0 := x0, r1 := x1, r2 := x2 } }

/-- A state with code at `pc`, whose next poll draws nothing. -/
def startAt (pc : Nat) (code : List Byte) (s : State) : State := placeBytes code pc { s with pc := pc, draws := [Config.Draw.quiet] }

/-- One value of the state after one iteration. -/
def after {α : Type} (s : State) (f : State → α) : Option α :=
  match step s with
  | .next t => some (f t)
  | .fault _ => none
  | .refused _ => none

/-- The fault one iteration ends with. -/
def faultOf (s : State) : Option Fault :=
  match step s with
  | .next _ => none
  | .fault f => some f
  | .refused _ => none

/-- Whether a computation answers. -/
def isOk {α β : Type} : Except α β → Bool
  | .ok _ => true
  | .error _ => false

def flagsNone : Flags := { l := false, g := false, e := false }
def flagsE : Flags := { l := false, g := false, e := true }
def flagsG : Flags := { l := false, g := true, e := false }
def flagsL : Flags := { l := true, g := false, e := false }

/-! ## Well-formedness: a register byte above 7 is refused (spec/30_encoding.md R62), an immediate is not checked (R63) -/

theorem test_wellFormed_refuses_first_operand : (Instr.add 8 0).wellFormed = false := by decide

theorem test_wellFormed_refuses_second_operand : (Instr.add 0 9).wellFormed = false := by decide

theorem test_wellFormed_refuses_single_operand : (Instr.jmp 255).wellFormed = false := by decide

theorem test_wellFormed_accepts_immediate : (Instr.ldi 7 255).wellFormed = true := by decide

theorem test_wellFormed_refuses_ldi_register : (Instr.ldi 8 0).wellFormed = false := by decide

/-! ## Decoding: a word written out bit by bit for every constructor (the encoding lines of spec/41_alu.md, 42_control_flow.md, 43_core.md) -/

theorem test_decode_alu_two_operands :
    decoded [0b10100000, 0b00000001, 0b00000010] = some (.add 1 2, []) ∧
    decoded [0b10100001, 0b00000011, 0b00000100] = some (.sub 3 4, []) ∧
    decoded [0b10100010, 0b00000101, 0b00000110] = some (.mul 5 6, []) ∧
    decoded [0b10100011, 0b00000111, 0b00000000] = some (.div 7 0, []) ∧
    decoded [0b10100100, 0b00000010, 0b00000001] = some (.mod 2 1, []) ∧
    decoded [0b10100111, 0b00000100, 0b00000011] = some (.cmp 4 3, []) := by decide

theorem test_decode_alu_bitwise :
    decoded [0b10101000, 0b00000110, 0b00000101] = some (.and 6 5, []) ∧
    decoded [0b10101010, 0b00000000, 0b00000111] = some (.or 0 7, []) ∧
    decoded [0b10101011, 0b00000001, 0b00000011] = some (.xor 1 3, []) ∧
    decoded [0b10101100, 0b00000010, 0b00000100] = some (.shl 2 4, []) ∧
    decoded [0b10101101, 0b00000101, 0b00000111] = some (.shr 5 7, []) := by decide

theorem test_decode_alu_one_operand :
    decoded [0b01100101, 0b00000011, 0b11111111] = some (.inc 3, [255]) ∧
    decoded [0b01100110, 0b00000110] = some (.dec 6, []) ∧
    decoded [0b01101001, 0b00000111] = some (.not 7, []) := by decide

theorem test_decode_control :
    decoded [0b01010000, 0b00000001] = some (.call 1, []) ∧
    decoded [0b00010001, 0b00000001] = some (.ret, [1]) ∧
    decoded [0b01010010, 0b00000010] = some (.int 2, []) ∧
    decoded [0b00010011] = some (.iret, []) ∧
    decoded [0b01010100, 0b00000011] = some (.jmp 3, []) := by decide

theorem test_decode_conditional_jumps :
    decoded [0b01010101, 0b00000001] = some (.jeq 1, []) ∧
    decoded [0b01010110, 0b00000010] = some (.jne 2, []) ∧
    decoded [0b01010111, 0b00000011] = some (.jgt 3, []) ∧
    decoded [0b01011000, 0b00000100] = some (.jlt 4, []) ∧
    decoded [0b01011001, 0b00000101] = some (.jle 5, []) ∧
    decoded [0b01011010, 0b00000110] = some (.jge 6, []) := by decide

theorem test_decode_core :
    decoded [0b00000000] = some (.nop, []) ∧
    decoded [0b00000001] = some (.hlt, []) ∧
    decoded [0b10000010, 0b00000101, 0b10000001] = some (.ldi 5 129, []) ∧
    decoded [0b10000011, 0b00000001, 0b00000010] = some (.ld 1 2, []) ∧
    decoded [0b10000100, 0b00000001, 0b00000010] = some (.st 1 2, []) := by decide

theorem test_decode_core_one_operand :
    decoded [0b01000101, 0b00000010] = some (.push 2, []) ∧
    decoded [0b01000110, 0b00000011] = some (.pop 3, []) ∧
    decoded [0b01000111, 0b00000100] = some (.prn 4, []) ∧
    decoded [0b01001000, 0b00000101] = some (.pra 5, []) := by decide

/-- The neighbours of legal bytes are rejected: an empty slot of each namespace, the fourth namespace, a wrong operand count, three operands. -/
theorem test_decode_rejects :
    decoded [0b10101110, 0, 0] = none ∧ decoded [0b01011011, 0] = none ∧ decoded [0b00001001] = none ∧ decoded [0b10110000, 0, 0] = none ∧
    decoded [0b01100000, 0] = none ∧ decoded [0b11100000, 0, 0, 0] = none ∧ decoded [0b10100000, 0] = none ∧ decoded [] = none := by decide

/-- The table's numbering: the opcode byte is the most significant byte of the row's bits (spec/30_encoding.md R64; log 2). -/
theorem test_decodeTableWord :
    decodeTableWord 24 0xA00102 = some (.add 1 2) ∧ decodeTableWord 16 0x4507 = some (.push 7) ∧ decodeTableWord 8 0x13 = some .iret ∧
    decodeTableWord 24 0xAE0000 = none := by decide

theorem test_encode_ldi : encode defaultOpMap (.ldi 0 5) = [0b10000010, 0b00000000, 0b00000101] := by decide

/-- The "hex" column of spec/30_encoding.md R64, in the order of its tables. -/
theorem test_opcode_bytes :
    (rows 0 0).map (Instr.opcode defaultOpMap) =
      [0xA0, 0xA1, 0xA2, 0xA3, 0xA4, 0x65, 0x66, 0xA7, 0xA8, 0x69, 0xAA, 0xAB, 0xAC, 0xAD,
       0x50, 0x11, 0x52, 0x13, 0x54, 0x55, 0x56, 0x57, 0x58, 0x59, 0x5A,
       0x00, 0x01, 0x82, 0x83, 0x84, 0x45, 0x46, 0x47, 0x48] := by decide

/-- An `OPMAP` with the values of `ADD` and `SHL` exchanged (spec/00_scope.md R5): one more opcode byte of the ALU namespace changes hands. -/
def swappedOpMap : Config.OpMap := { defaultOpMap with add := 12, shl := 0 }

theorem test_other_opmap :
    OpMap.valid swappedOpMap ∧ lookup swappedOpMap 0xA0 1 2 = some (.shl 1 2) ∧ lookup swappedOpMap 0xAC 1 2 = some (.add 1 2) ∧
      ¬ OpMap.valid { defaultOpMap with add := 1 } := by decide

/-- The step decodes under the machine's own `OPMAP`: 0xA0 is `SHL` there. -/
theorem test_step_other_opmap :
    let s : State := startAt 0 [0xA0, 0, 1] (withX 3 2 0)
    after { s with params := { s.params with opMap := swappedOpMap } } (fun t => t.reg .r0) = some 12 := by decide

/-- Other flag bit positions (spec/00_scope.md R5): L in bit 0, G in bit 7, E in bit 3. -/
theorem test_other_flag_bits :
    let bits : Config.FlagBits := { l := 0, g := 7, e := 3 }
    [flagsNone, flagsL, flagsG, flagsE].map (flagWord bits) = [0, 1, 128, 8] ∧
    [0, 1, 128, 8, 2, 9].map (flagsOfWord bits) = [some flagsNone, some flagsL, some flagsG, some flagsE, none, none] ∧
    [flagsNone, flagsL, flagsG, flagsE].map (flagWord defaultFlagBits) = [0, 4, 2, 1] := by decide

/-- The very next step of the reset state runs the placed word: `LDI R1,5`. -/
theorem test_withFetchWord :
    after (State.reset.withFetchWord 24 0x820105) (fun t => (t.reg .r1, t.pc)) = some (5, 3) := by decide

/-- The same where an interrupt is pending: the poll services line 2, and the word runs at the handler's address. -/
theorem test_withFetchWord_after_service :
    let s : State := (withX 0 0 0).setCell 0xFA (.byte 0x40)
    after (State.withFetchWord { s with regs := { s.regs with r5 := 4, r6 := 4 } } 8 0x01) (fun t => (t.pc, t.reg .r7)) = some (0x41, 0xEB) := by
  decide

/-! ## ALU, one iteration each -/

/-- V1 -/
theorem test_add_wraps :
    after (startAt 0 [0xA0, 0, 1] (withX 200 100 0)) (fun t => (t.reg .r0, t.reg .r1, t.pc, t.fl)) = some (44, 100, 3, flagsNone) := by decide

/-- V3: the source is also the destination -/
theorem test_add_same_register : after (startAt 0 [0xA0, 0, 0] (withX 0x90 0 0)) (fun t => t.reg .r0) = some 0x20 := by decide

/-- V4 -/
theorem test_sub_wraps : after (startAt 0 [0xA1, 0, 1] (withX 5 10 0)) (fun t => t.reg .r0) = some 251 := by decide

/-- V6 -/
theorem test_sub_legacy_product :
    let s : State := withX 20 20 0
    after (startAt 0 [0xA1, 0, 1] { s with params := { s.params with subLegacyProduct := true } }) (fun t => t.reg .r0) = some 0x90 := by decide

/-- V7 -/
theorem test_mul_low_byte : after (startAt 0 [0xA2, 0, 1] (withX 16 16 0)) (fun t => t.reg .r0) = some 0 := by decide

/-- V9 -/
theorem test_mul_unsigned : after (startAt 0 [0xA2, 0, 1] (withX 255 255 0)) (fun t => t.reg .r0) = some 1 := by decide

/-- V10 -/
theorem test_div_is_shift : after (startAt 0 [0xA3, 0, 1] (withX 200 3 0)) (fun t => t.reg .r0) = some 25 := by decide

/-- V11 -/
theorem test_div_by_zero : after (startAt 0 [0xA3, 0, 1] (withX 200 0 0)) (fun t => t.reg .r0) = some 200 := by decide

/-- V13 -/
theorem test_mod : after (startAt 0 [0xA4, 0, 1] (withX 17 5 0)) (fun t => t.reg .r0) = some 2 := by decide

/-- V15 -/
theorem test_mod_by_zero : faultOf (startAt 9 [0xA4, 0, 1] (withX 3 0 0)) = some (.arithmeticFault 9) := by decide

/-- V16 -/
theorem test_and : after (startAt 0 [0xA8, 0, 1] (withX 0xCC 0xAA 0)) (fun t => t.reg .r0) = some 0x88 := by decide

/-- V17 -/
theorem test_or : after (startAt 0 [0xAA, 0, 1] (withX 0xCC 0xAA 0)) (fun t => t.reg .r0) = some 0xEE := by decide

/-- V18 -/
theorem test_xor : after (startAt 0 [0xAB, 0, 1] (withX 0xCC 0xAA 0)) (fun t => t.reg .r0) = some 0x66 := by decide

/-- V20 -/
theorem test_not : after (startAt 0 [0x69, 0] (withX 0x0F 0 0)) (fun t => (t.reg .r0, t.pc)) = some (0xF0, 2) := by decide

/-- V21 -/
theorem test_inc_wraps : after (startAt 0 [0x65, 1] (withX 0 255 0)) (fun t => (t.reg .r1, t.fl)) = some (0, flagsNone) := by decide

/-- V22 -/
theorem test_dec_wraps : after (startAt 0 [0x66, 1] (withX 0 0 0)) (fun t => (t.reg .r1, t.fl)) = some (255, flagsNone) := by decide

/-- V23 -/
theorem test_shl : after (startAt 0 [0xAC, 0, 1] (withX 0x81 1 0)) (fun t => t.reg .r0) = some 0x02 := by decide

/-- V24: a count of 8 -/
theorem test_shl_by_eight : after (startAt 0 [0xAC, 0, 1] (withX 0xFF 8 0)) (fun t => t.reg .r0) = some 0 := by decide

/-- V25 -/
theorem test_shr : after (startAt 0 [0xAD, 0, 1] (withX 0x81 1 0)) (fun t => t.reg .r0) = some 0x40 := by decide

/-- V26: a count of 7 -/
theorem test_shr_by_seven : after (startAt 0 [0xAD, 0, 1] (withX 0x80 7 0)) (fun t => t.reg .r0) = some 1 := by decide

/-- V28: the comparison is unsigned -/
theorem test_cmp_unsigned :
    after (startAt 0 [0xA7, 0, 1] (withX 0x80 0x7F 0)) (fun t => (t.fl, t.reg .r0, t.pc)) = some (flagsG, 0x80, 3) := by decide

/-- V29: the old flag is cleared -/
theorem test_cmp_clears_old_flag : after (startAt 0 [0xA7, 0, 1] ((withX 9 9 0).setFlags flagsL)) (fun t => t.fl) = some flagsE := by decide

/-- V32: the second operand byte is 9 -/
theorem test_register_byte_nine : faultOf (startAt 0 [0xA0, 0, 9] (withX 1 0 0)) = some (.decodeError 9) := by decide

/-! ## Control flow (V33 to V42) -/

/-- A jump's `pc` after one iteration at 0x10 with `x[2] = 0x30`, for `FL` none, E, G, L. -/
def jumpRow (opcode : Byte) : List (Option Nat) :=
  [flagsNone, flagsE, flagsG, flagsL].map fun f => after (startAt 0x10 [opcode, 2] ((withX 0 0 0x30).setFlags f)) (fun t => t.pc)

theorem test_jmp : jumpRow 0x54 = [some 0x30, some 0x30, some 0x30, some 0x30] := by decide
theorem test_jeq : jumpRow 0x55 = [some 0x12, some 0x30, some 0x12, some 0x12] := by decide
theorem test_jne : jumpRow 0x56 = [some 0x30, some 0x12, some 0x30, some 0x30] := by decide
theorem test_jgt : jumpRow 0x57 = [some 0x12, some 0x12, some 0x30, some 0x12] := by decide
theorem test_jge : jumpRow 0x5A = [some 0x12, some 0x30, some 0x30, some 0x12] := by decide
theorem test_jlt : jumpRow 0x58 = [some 0x12, some 0x12, some 0x12, some 0x30] := by decide
theorem test_jle : jumpRow 0x59 = [some 0x12, some 0x30, some 0x12, some 0x30] := by decide

/-- V40 -/
theorem test_call :
    after (startAt 6 [0x50, 1] (withX 0 0x16 0)) (fun t => (t.reg .r7, t.cellAt 0xF3, t.pc)) = some (0xF3, .raw 8, 0x16) := by decide

/-- V40c: the target register is the stack pointer, read after the push -/
theorem test_call_r7 : after (startAt 6 [0x50, 7] State.reset) (fun t => (t.reg .r7, t.pc)) = some (0xF3, 0xF3) := by decide

/-- V41d: the popped cell is the reset memory's -/
theorem test_ret : after (startAt 0x20 [0x11] State.reset) (fun t => (t.pc, t.reg .r7)) = some (0, 0xF5) := by decide

/-- V41c: the bound of the stack pointer is checked -/
theorem test_ret_overflow : faultOf (startAt 0x20 [0x11] ((State.reset.setReg .r7 0xFF).setCell 0xFF (.raw 8))) = some (.stackFault 256) := by decide

/-- V42 -/
theorem test_int : after (startAt 0x12 [0x52, 0] (withX 2 0 0)) (fun t => (t.reg .r6, t.pc, t.reg .r7)) = some (4, 0x14, 0xF4) := by decide

/-- `INT` with a number above 7 only moves `pc` (spec/42_control_flow.md R140) -/
theorem test_int_no_line : after (startAt 0x12 [0x52, 0] (withX 8 0 0)) (fun t => (t.reg .r6, t.pc)) = some (0, 0x14) := by decide

/-- The nine cells of V74, from address 246 up. -/
def iretFrame : State :=
  [(246, Cell.byte 0), (247, .byte 1), (248, .byte 2), (249, .byte 3), (250, .byte 4), (251, .byte 5), (252, .byte 6), (253, .raw 4), (254, .raw 0x33)].foldl
    (fun s p => s.setCell p.1 p.2) ((State.reset.setReg .r7 246).setIe false)

/-- V74 -/
theorem test_iret :
    after (startAt 0x20 [0x13] iretFrame) (fun t => (t.regs, t.fl, t.pc, t.ie)) =
      some ({ r0 := 6, r1 := 5, r2 := 4, r3 := 3, r4 := 2, r5 := 1, r6 := 0, r7 := 255 }, flagsL, 0x33, true) := by decide

/-- V71: a flag word that is none of 0, 1, 2, 4 -/
theorem test_iret_bad_flags : faultOf (startAt 0x20 [0x13] (iretFrame.setCell 253 (.raw 3))) = some (.tagFault 253) := by decide

/-! ## Core -/

/-- spec/43_core.md R151 -/
theorem test_nop : after (startAt 255 [0x00] State.reset) (fun t => t.pc) = some 256 := by decide

/-- spec/43_core.md R152: `HLT` does not halt -/
theorem test_hlt : after (startAt 0 [0x01] State.reset) (fun t => (t.pc, t.status)) = some (1, .running) := by decide

/-- spec/43_core.md R153 -/
theorem test_ldi : after (startAt 0 [0x82, 7, 255] State.reset) (fun t => (t.reg .r7, t.pc)) = some (255, 3) := by decide

/-- spec/43_core.md R154: B is the address -/
theorem test_ld : after (startAt 0 [0x83, 0, 1] ((withX 0 0x80 0).setCell 0x80 (.byte 14))) (fun t => (t.reg .r0, t.pc)) = some (14, 3) := by decide

/-- spec/43_core.md R154: a Raw cell -/
theorem test_ld_raw : faultOf (startAt 0 [0x83, 0, 1] (withX 0 0x80 0)) = some (.tagFault 0x80) := by decide

/-- spec/43_core.md R155: A is the address, B the value; a Raw cell becomes a Byte -/
theorem test_st : after (startAt 0 [0x84, 0, 1] ((withX 0x80 7 0).setCell 0x80 (.raw 9))) (fun t => (t.cellAt 0x80, t.pc)) = some (.byte 7, 3) := by decide

/-- `ST` into the next instruction's cell: the next fetch sees it (spec/20_memory.md R53) -/
theorem test_st_over_code : after (startAt 0 [0x84, 0, 1] (withX 3 0x01 0)) (fun t => after (t.setIe false) (fun u => u.pc)) = some (some 4) := by decide

/-- spec/43_core.md R156: the stack pointer pushed after its decrement -/
theorem test_push_r7 : after (startAt 0 [0x45, 7] State.reset) (fun t => (t.reg .r7, t.cellAt 0xF3)) = some (0xF3, .byte 0xF3) := by decide

/-- spec/20_memory.md R56 -/
theorem test_push_underflow : faultOf (startAt 1 [0x45, 0] (State.reset.setReg .r7 0)) = some (.stackFault (-1)) := by decide

/-- spec/43_core.md R157 -/
theorem test_pop :
    after (startAt 0 [0x46, 0] ((State.reset.setReg .r7 0x80).setCell 0x80 (.byte 9))) (fun t => (t.reg .r0, t.reg .r7, t.pc)) = some (9, 0x81, 2) := by
  decide

/-- spec/43_core.md R157: `POP R7` increments the value just popped -/
theorem test_pop_r7 :
    after (startAt 0 [0x46, 7] ((State.reset.setReg .r7 0x80).setCell 0x80 (.byte 9))) (fun t => t.reg .r7) = some 10 := by decide

/-- spec/43_core.md R158: no leading zeros -/
theorem test_prn : after (startAt 0 [0x47, 0] (withX 105 0 0)) (fun t => (t.prnOut, t.acc)) = some ([['1', '0', '5']], []) := by decide

/-- spec/43_core.md R158: zero is one digit -/
theorem test_prn_zero : after (startAt 0 [0x47, 0] State.reset) (fun t => t.prnOut) = some [['0']] := by decide

/-- spec/43_core.md R159 -/
theorem test_pra : after (startAt 0 [0x48, 0] (withX 72 0 0)) (fun t => (t.acc, t.prnOut)) = some ([72], []) := by decide

/-! ## The iteration: halt, fetch, poll -/

/-- An empty memory halts at once (V88) -/
theorem test_halt_on_raw : after (startAt 0 [] State.reset) (fun t => (t.status, t.pc)) = some (.halted, 0) := by decide

/-- `pc = 256` (spec/40_fetch_decode_dispatch.md R92) -/
theorem test_fetch_above_memory : faultOf (startAt 256 [] State.reset) = some (.memoryFault 256) := by decide

/-- An operand above address 255 (spec/40_fetch_decode_dispatch.md R94) -/
theorem test_operand_above_memory : faultOf (startAt 254 [0x82, 0] State.reset) = some (.memoryFault 256) := by decide

/-- A Raw operand cell (spec/40_fetch_decode_dispatch.md R94) -/
theorem test_raw_operand : faultOf (startAt 0 [0x82, 0] State.reset) = some (.decodeError 2) := by decide

/-- An illegal opcode byte with its three operands there (spec/40_fetch_decode_dispatch.md R94, R95) -/
theorem test_illegal_opcode : faultOf (startAt 0 [0xE0, 0, 0, 0] State.reset) = some (.decodeError 0xE0) := by decide

/-- The state of V60, with its timer fire. -/
def timerState : State :=
  let s : State := (startAt 0x14 [0x00] (((State.reset.setCell 0xF8 (.byte 0x40)).setCell 0x40 (.byte 0)).setFlags flagsG))
  { s with regs := { r0 := 9, r1 := 8, r2 := 7, r3 := 6, r4 := 5, r5 := 1, r6 := 0x80, r7 := 0xF4 }, draws := [{ tick := true, key := none }] }

/-- V60: the frame, read back cell by cell -/
theorem test_service_frame :
    after timerState (fun t => [0xF3, 0xF2, 0xF1, 0xF0, 0xEF, 0xEE, 0xED, 0xEC, 0xEB].map (fun a => t.cellAt a)) =
      some [.raw 0x14, .raw 2, .byte 9, .byte 8, .byte 7, .byte 6, .byte 5, .byte 1, .byte 0x80] := by decide

/-- V60: the registers, and the handler's first instruction in the same iteration -/
theorem test_service_state :
    after timerState (fun t => (t.regs, t.ie, t.fl, t.pc)) =
      some ({ r0 := 0, r1 := 0, r2 := 0, r3 := 0, r4 := 0, r5 := 0, r6 := 0, r7 := 0xEB }, false, flagsG, 0x41) := by decide

/-- V62: nothing is serviced while `IM = 0`; the key is stored -/
theorem test_masked_key :
    let s : State := startAt 0x14 [0x00] (State.reset.setReg .r6 0xFF)
    after { s with draws := [{ tick := true, key := some 0x41 }] } (fun t => (t.reg .r6, t.cellAt 0xF4, t.reg .r7, t.ie, t.pc)) =
      some (0xFF, .byte 0x41, 0xF4, true, 0x15) := by decide

/-- V64: the cancel key pre-empts the pending service and the instruction -/
theorem test_cancel :
    let s : State := startAt 0 [0x48, 0] (((withX 65 0 0).setReg .r5 1).setReg .r6 1)
    after { s with draws := [{ tick := false, key := some 0x1B }] } (fun t => (t.status, t.acc, t.pc)) = some (.cancelled, [], 0) := by decide

/-- V65: no poll while `IE` is false -/
theorem test_no_poll :
    let s : State := (startAt 0 [0x48, 0] (withX 65 0 0)).setIe false
    after { s with draws := [{ tick := true, key := some 0x1B }] } (fun t => (t.acc, t.reg .r6, t.cellAt 0xF4, t.pc)) = some ([65], 0, .raw 0, 2) := by
  decide

/-- V66: an unwritten vector slot -/
theorem test_service_raw_vector :
    faultOf (startAt 0x14 [0x00] ((State.reset.setReg .r5 4).setReg .r6 4)) = some (.tagFault 0xFA) := by decide

/-! ## The loader (V81 to V89) -/

theorem test_load_comment_and_padding :
    (match load [['1', '#', '0'], [' ', '#'], ['1', '0', '1', ' ']] State.reset with
      | .ok t => [t.cellAt 0, t.cellAt 1, t.cellAt 2]
      | .error _ => []) = [.byte 1, .byte 5, .raw 0] := by decide

theorem test_load_nine_digits : isOk (load [List.replicate 9 '0'] State.reset) = false := by decide

theorem test_load_other_character : isOk (load [['1', '2']] State.reset) = false := by decide

/-! ## Witnesses: inputs that meet the hypotheses of the obligations, at boundary values -/

/-- The operand bytes 0 and 7 name the first and the last register: `reg a = .ok ra`, `reg b = .ok rb`, the hypotheses of AddWrapsModulo256,
SubIsDifferenceOrLegacyProduct, MulKeepsLowByte, DivAndShrShiftRight, ShlShiftsLeft, ModIsUnsignedRemainder, BitwiseOperationsBitByBit, NotIsComplement,
IncAndDecWrap, CmpSetsExactlyOneFlag, JmpGoesToRegister, ConditionalJumpsTestTheirFlags, IntMakesLinePending, LdiLoadsImmediate, StStoresToAddress,
PrnEmitsDecimalNumeral and PraAppendsCharacter. -/
theorem witness_register_operands : reg 0 = .ok .r0 ∧ reg 7 = .ok .r7 := ⟨rfl, rfl⟩

/-- Two admitted `OPMAP`s, for DecodeIsInverseOfEncode and ExactlyThirtyFourOpcodesDecode. -/
theorem witness_DecodeIsInverseOfEncode : OpMap.valid defaultOpMap ∧ OpMap.valid swappedOpMap := by decide

theorem witness_ExactlyThirtyFourOpcodesDecode :
    OpMap.valid defaultOpMap ∧ operandCount 0x5A ≤ [(7 : Byte)].length ∧ operandCount 0x5B ≤ [(7 : Byte)].length ∧ operandCount 0xFF ≤ [(0 : Byte), 0, 0].length := by decide

/-- A state whose poll is quiet and whose bytes at 253 are `LDI R7,255`, the last place an instruction of three bytes fits. -/
def ldiAtTop : State := startAt 253 [0x82, 7, 255] State.reset

theorem witness_StepRunsDecodedInstruction :
    ldiAtTop.status = .running ∧ pollPhase ldiAtTop = .ok ldiAtTop.consumeDraw ∧ ldiAtTop.consumeDraw.status = .running ∧
      OpMap.valid ldiAtTop.consumeDraw.params.opMap ∧
      BytesAt ldiAtTop.consumeDraw ldiAtTop.consumeDraw.pc (encode ldiAtTop.consumeDraw.params.opMap (.ldi 7 255)) :=
  ⟨rfl, rfl, rfl, by decide, by decide, by decide, by decide, by decide, by decide, by decide, trivial⟩

/-- Polls skipped: the state itself is the state after the poll. -/
def offAt (pc : Nat) (code : List Byte) : State := (startAt pc code State.reset).setIe false

theorem witness_RawCellAtPcIsTheOnlyHalt_above : (offAt 256 []).status = .running ∧ pollPhase (offAt 256 []) = .ok (offAt 256 []) ∧
    255 < (offAt 256 []).pc := ⟨rfl, rfl, by decide⟩

theorem witness_RawCellAtPcIsTheOnlyHalt_raw : pollPhase (offAt 255 []) = .ok (offAt 255 []) ∧ (offAt 255 []).pc ≤ 255 ∧
    (offAt 255 []).cellAt (offAt 255 []).pc = .raw 0 ∧ after (offAt 255 []) (fun t => t.status) = some .halted := ⟨rfl, by decide, by decide, by decide⟩

theorem witness_RawCellAtPcIsTheOnlyHalt_byte : pollPhase (offAt 255 [0x01]) = .ok (offAt 255 [0x01]) ∧ (offAt 255 [0x01]).pc ≤ 255 ∧
    (offAt 255 [0x01]).cellAt (offAt 255 [0x01]).pc = .byte 0x01 ∧ fetchOperands (operandCount 0x01) 256 (offAt 255 [0x01]) = .ok [] ∧
    decoded [0x01] = some (.hlt, []) := ⟨rfl, by decide, by decide, rfl, by decide⟩

/-- One operand read at 255, the second is out of memory. -/
theorem witness_OperandFetchReadsBytesInOrder_top : [(7 : Byte)].length < 2 ∧ BytesAt (offAt 254 [0x82, 7]) 255 [7] ∧ 255 < 255 + [(7 : Byte)].length :=
  ⟨by decide, ⟨by decide, by decide, trivial⟩, by decide⟩

/-- One operand read at 254, the second is Raw. -/
theorem witness_OperandFetchReadsBytesInOrder_raw : [(7 : Byte)].length < 2 ∧ BytesAt (offAt 253 [0x82, 7]) 254 [7] ∧
    254 + [(7 : Byte)].length ≤ 255 ∧ (offAt 253 [0x82, 7]).cellAt 255 = .raw 0 := ⟨by decide, ⟨by decide, by decide, trivial⟩, by decide, by decide⟩

/-- The two clauses at the step: the operand out of memory, and the Raw one, both the second of an `LDI`, no poll in the way. -/
theorem witness_OperandFetchReadsBytesInOrder_step_top :
    (offAt 254 [0x82, 7]).status = .running ∧ pollPhase (offAt 254 [0x82, 7]) = .ok (offAt 254 [0x82, 7]) ∧ (offAt 254 [0x82, 7]).pc ≤ 255 ∧
    (offAt 254 [0x82, 7]).cellAt (offAt 254 [0x82, 7]).pc = .byte 0x82 ∧ [(7 : Byte)].length < operandCount 0x82 ∧
    BytesAt (offAt 254 [0x82, 7]) ((offAt 254 [0x82, 7]).pc + 1) [7] ∧ 255 < (offAt 254 [0x82, 7]).pc + 1 + [(7 : Byte)].length ∧
    faultOf (offAt 254 [0x82, 7]) = some (.memoryFault 256) :=
  ⟨rfl, rfl, by decide, by decide, by decide, ⟨by decide, by decide, trivial⟩, by decide, by decide⟩

theorem witness_OperandFetchReadsBytesInOrder_step_raw :
    (offAt 253 [0x82, 7]).status = .running ∧ pollPhase (offAt 253 [0x82, 7]) = .ok (offAt 253 [0x82, 7]) ∧ (offAt 253 [0x82, 7]).pc ≤ 255 ∧
    (offAt 253 [0x82, 7]).cellAt (offAt 253 [0x82, 7]).pc = .byte 0x82 ∧ [(7 : Byte)].length < operandCount 0x82 ∧
    BytesAt (offAt 253 [0x82, 7]) ((offAt 253 [0x82, 7]).pc + 1) [7] ∧ (offAt 253 [0x82, 7]).pc + 1 + [(7 : Byte)].length ≤ 255 ∧
    (offAt 253 [0x82, 7]).cellAt ((offAt 253 [0x82, 7]).pc + 1 + [(7 : Byte)].length) = .raw 0 ∧
    faultOf (offAt 253 [0x82, 7]) = some (.decodeError 255) :=
  ⟨rfl, rfl, by decide, by decide, by decide, ⟨by decide, by decide, trivial⟩, by decide, by decide, by decide⟩

theorem witness_UnknownOpcodeFaults :
    (offAt 252 [0xFF, 1, 2, 3]).status = .running ∧ pollPhase (offAt 252 [0xFF, 1, 2, 3]) = .ok (offAt 252 [0xFF, 1, 2, 3]) ∧
    (offAt 252 [0xFF, 1, 2, 3]).pc ≤ 255 ∧ (offAt 252 [0xFF, 1, 2, 3]).cellAt 252 = .byte 0xFF ∧ [(1 : Byte), 2, 3].length = operandCount 0xFF ∧
    BytesAt (offAt 252 [0xFF, 1, 2, 3]) 253 [1, 2, 3] ∧ ∀ i : Instr, i.opcode (offAt 252 [0xFF, 1, 2, 3]).params.opMap ≠ 0xFF :=
  ⟨rfl, rfl, by decide, by decide, by decide, ⟨by decide, by decide, by decide, by decide, by decide, by decide, trivial⟩,
    fun i => by cases i <;> exact of_decide_eq_true rfl⟩

theorem witness_RegisterOperandsCheckedFirst :
    (Instr.add 8 9).registerOperands.find? (fun b => decide (7 < b.toNat)) = some 8 ∧
    (Instr.add 7 255).registerOperands.find? (fun b => decide (7 < b.toNat)) = some 255 := by decide

theorem witness_MemoryUnitReadsAndWrites : ¬ (255 < 255) ∧ 255 < 256 := by decide

theorem witness_PushDecrementsThenWrites : (State.reset.setReg .r7 0).reg .r7 = 0#8 ∧ (State.reset.setReg .r7 1).reg .r7 ≠ 0#8 := by decide

theorem witness_PopReadsThenIncrements : (State.reset.setReg .r7 255).reg .r7 = 255#8 ∧ (State.reset.setReg .r7 254).reg .r7 ≠ 255#8 := by decide

theorem witness_PushThenPopRestores : reg 7 = .ok .r7 ∧ (State.reset.setReg .r7 1).reg .r7 ≠ 0#8 := ⟨rfl, by decide⟩

/-- The state right after the `CALL` with another register changed is such a later state. -/
theorem witness_CallThenRetResumes : ∃ t, exec (.call 1) State.reset = .next t ∧ (t.setReg .r0 5).reg .r7 = t.reg .r7 ∧
    (t.setReg .r0 5).cellAt ((t.setReg .r0 5).reg .r7).toNat = t.cellAt (t.reg .r7).toNat := ⟨_, rfl, rfl, rfl⟩

theorem witness_ModIsUnsignedRemainder : (withX 3 1 0).reg .r1 ≠ 0#8 ∧ (withX 3 0 0).reg .r1 = 0#8 := by decide

theorem witness_CallPushesReturnAddress : reg 7 = .ok .r7 ∧ (State.reset.setReg .r7 1).reg .r7 ≠ 0#8 ∧ (State.reset.setReg .r7 0).reg .r7 = 0#8 :=
  ⟨rfl, by decide, by decide⟩

theorem witness_RetPopsReturnAddress :
    (State.reset.setReg .r7 254).reg .r7 ≠ 255#8 ∧ (State.reset.setReg .r7 254).cellAt 254 = .raw 0 ∧ (State.reset.setReg .r7 255).reg .r7 = 255#8 ∧
    ((State.reset.setReg .r7 254).setCell 254 (.byte 8)).cellAt 254 = .byte 8 := by decide

/-- A fitting frame as high as it can lie. -/
theorem witness_IretRestoresFrame_frame : (iretFrame.reg .r7).toNat ≤ 246 ∧ iretFrame.params.flagBits.distinct ∧ flagsL.exclusive ∧
    (∀ k : Fin 7, iretFrame.cellAt ((iretFrame.reg .r7).toNat + k.val) = .byte (BitVec.ofNat 8 k.val)) ∧
    iretFrame.cellAt ((iretFrame.reg .r7).toNat + 7) = .raw (flagsL.l.toNat * 2 ^ iretFrame.params.flagBits.l.val +
      flagsL.g.toNat * 2 ^ iretFrame.params.flagBits.g.val + flagsL.e.toNat * 2 ^ iretFrame.params.flagBits.e.val) ∧
    iretFrame.cellAt ((iretFrame.reg .r7).toNat + 8) = .raw 0x33 := by decide

/-- V73: nine slots up to the bound, the first eight of which fit. -/
def iretAtBound : State :=
  [(247, Cell.byte 0), (248, .byte 0), (249, .byte 0), (250, .byte 0), (251, .byte 0), (252, .byte 0), (253, .byte 0), (255, .raw 5)].foldl
    (fun s p => s.setCell p.1 p.2) (State.reset.setReg .r7 247)

theorem witness_IretRestoresFrame_bound : 8 < 9 ∧ (∀ j, j < 8 → IretSlotFits iretAtBound (iretAtBound.reg .r7).toNat j) ∧
    (iretAtBound.reg .r7).toNat + 8 = 255 := by
  refine ⟨by decide, fun j hj => ?_, by decide⟩
  rcases Nat.lt_or_ge j 7 with h | h
  · have hb : ∀ k, k < 7 → iretAtBound.cellAt (247 + k) = .byte 0 := by decide
    exact .inl ⟨h, 0, hb j h⟩
  · obtain rfl : j = 7 := by omega
    exact .inr (.inl ⟨rfl, 0, .inl rfl, by decide⟩)

/-- The first slot at 254 holds a Raw cell. -/
theorem witness_IretRestoresFrame_tag : ((State.reset.setReg .r7 254).reg .r7).toNat + 0 < 255 ∧
    ¬ IretSlotFits (State.reset.setReg .r7 254) ((State.reset.setReg .r7 254).reg .r7).toNat 0 := by
  have hc : (State.reset.setReg .r7 254).cellAt (((State.reset.setReg .r7 254).reg .r7).toNat + 0) = .raw 0 := by decide
  refine ⟨by decide, fun h => ?_⟩
  rcases h with ⟨_, b, hb⟩ | ⟨h, _⟩ | ⟨h, _⟩
  · rw [hc] at hb
    cases hb
  · cases h
  · cases h

theorem witness_LdLoadsAddressedByte : reg 0 = .ok .r0 ∧ reg 7 = .ok .r7 ∧ (State.reset.setCell 0xF4 (.byte 1)).cellAt (State.reset.reg .r7).toNat = .byte 1 ∧
    State.reset.cellAt (State.reset.reg .r7).toNat = .raw 0 := ⟨rfl, rfl, by decide, by decide⟩

theorem witness_PushStoresRegister : reg 7 = .ok .r7 ∧ (State.reset.setReg .r7 1).reg .r7 ≠ 0#8 ∧ (State.reset.setReg .r7 0).reg .r7 = 0#8 :=
  ⟨rfl, by decide, by decide⟩

/-- `POP R7` of 254 and of 255, `POP R0` at 254, and a Raw cell. -/
theorem witness_PopLoadsRegister : reg 7 = .ok .r7 ∧ ((State.reset.setReg .r7 254).setCell 254 (.byte 255)).cellAt 254 = .byte 255 ∧
    ((State.reset.setReg .r7 255).setCell 255 (.byte 254)).cellAt 255 = .byte 254 ∧ (254 : Byte) ≠ 255#8 ∧ State.reset.cellAt 0xF4 = .raw 0 :=
  ⟨rfl, by decide, by decide, by decide, by decide⟩

theorem witness_NoPollWhileDisabled : (offAt 0 [0x01]).ie = false ∧ after (offAt 0 [0x01]) (fun t => t.pc) = some 1 := by decide

/-- The reset state with one draw. -/
def withDraw (d : Config.Draw) : State := { State.reset with draws := [d] }

theorem witness_CancelKeyEndsRun : (withDraw { tick := true, key := some 0x1B }).status = .running ∧ (withDraw { tick := true, key := some 0x1B }).ie = true ∧
    (withDraw { tick := true, key := some 0x1B }).draw.key = some (withDraw { tick := true, key := some 0x1B }).params.cancelKey := by decide

theorem witness_PollRecordsTimerAndKey : (withDraw { tick := true, key := some 0x1C }).ie = true ∧
    (withDraw { tick := true, key := some 0x1C }).draw.key ≠ some (withDraw { tick := true, key := some 0x1C }).params.cancelKey ∧
    (withDraw { tick := true, key := some 0x1C }).draw.key = some 0x1C ∧ (withDraw Config.Draw.quiet).draw.key = none := by decide

/-- Line 7 alone with 0 to 6 pending but masked; the service of line 7 completes; and no active line. -/
theorem witness_LowestActiveLineIsServiced :
    let s : State := ((State.reset.setReg .r5 0x80).setReg .r6 0xFF).setCell 0xFF (.byte 0x40)
    (s.reg .r5).getLsbD 7 = true ∧ (s.reg .r6).getLsbD 7 = true ∧ (∀ m, m < 7 → ((s.reg .r5).getLsbD m && (s.reg .r6).getLsbD m) = false) ∧
    isOk (service 7 s) = true ∧ (∀ n, n < 8 → ((State.reset.reg .r5).getLsbD n && (State.reset.reg .r6).getLsbD n) = false) := by decide

/-- A poll at which the timer fires and a key arrives. -/
theorem witness_LowestActiveLineIsServiced_both : (withDraw { tick := true, key := some 0x41 }).ie = true ∧
    (withDraw { tick := true, key := some 0x41 }).draw.tick = true ∧ (withDraw { tick := true, key := some 0x41 }).draw.key = some 0x41 ∧
    (0x41 : Byte) ≠ (withDraw { tick := true, key := some 0x41 }).params.cancelKey := by decide

/-- Line 7 alone active in a running state whose draw is quiet: SP = 8, and SP = 9 with the slot at 0xFF, where reset left it Raw, above the frame. -/
theorem witness_PollFaultEndsTheIteration :
    let s : State := { (State.reset.setReg .r5 0x80).setReg .r6 0xFF with draws := [Config.Draw.quiet] }
    s.status = .running ∧ s.ie = true ∧ s.draw = Config.Draw.quiet ∧ (s.reg .r5).getLsbD 7 = true ∧ (s.reg .r6).getLsbD 7 = true ∧
    (∀ m, m < 7 → ((s.reg .r5).getLsbD m && (s.reg .r6).getLsbD m) = false) ∧ ((s.setReg .r7 8).reg .r7).toNat < 9 ∧
    9 ≤ ((s.setReg .r7 9).reg .r7).toNat ∧ ((s.setReg .r7 9).reg .r7).toNat ≤ s.params.vectorBase.val + 7 ∧
    s.cellAt (s.params.vectorBase.val + 7) = .raw 0 := by decide

/-- The frame's own cells: line 6's slot at 0xFE is SP - 1 for SP = 255, line 5's at 0xFD is SP - 2. -/
theorem witness_PollFaultEndsTheIteration_frame :
    State.reset.params.vectorBase.val + 6 = ((State.reset.setReg .r7 255).reg .r7).toNat - 1 ∧
    State.reset.params.vectorBase.val + 5 = ((State.reset.setReg .r7 255).reg .r7).toNat - 2 := by decide

/-- A slot below the frame: line 0's at 0xF8 with SP = 0xF8 + 10 would be above 255, so another vector base: 16, with SP = 26. -/
theorem witness_PollFaultEndsTheIteration_below :
    let s : State := { State.reset with params := { State.reset.params with vectorBase := 16 } }
    s.params.vectorBase.val + 0 < ((s.setReg .r7 26).reg .r7).toNat - 9 ∧ (s.setReg .r7 26).cellAt (s.params.vectorBase.val + 0) = .raw 0 := by decide

theorem witness_NoServiceWhileMaskIsZero : (State.reset.setReg .r6 0xFF).reg .r5 = 0#8 := by decide

/-- Room for eight cells and for nine; a vector slot of each tag. -/
theorem witness_ServiceSavesFrame :
    ((State.reset.setReg .r7 8).reg .r7).toNat < 9 ∧ 9 ≤ ((State.reset.setReg .r7 9).reg .r7).toNat ∧
    (State.reset.setCell 0xFF (.byte 0x40)).cellAt (State.reset.params.vectorBase.val + 7) = .byte 0x40 ∧
    State.reset.cellAt (State.reset.params.vectorBase.val + 7) = .raw 0 := by decide

/-- Line 7's handler at 0x40, room for exactly one frame, the Greater flag set. -/
def serviceReady : State := ((State.reset.setReg .r7 9).setCell 0xFF (.byte 0x40)).setFlags flagsG

/-- The state right after a service that completes, with another register changed, is such a later state. -/
theorem witness_IretUndoesService :
    serviceReady.fl.exclusive ∧ serviceReady.params.flagBits.distinct ∧
    ∃ t, service 7 serviceReady = .ok t ∧ (t.setReg .r0 99).params = t.params ∧ (t.setReg .r0 99).reg .r7 = t.reg .r7 ∧
      ∀ k, k < 9 → (t.setReg .r0 99).cellAt ((t.reg .r7).toNat + k) = t.cellAt ((t.reg .r7).toNat + k) := by
  have hok : isOk (service 7 serviceReady) = true := by decide
  refine ⟨by decide, by decide, ?_⟩
  cases hs : service 7 serviceReady with
  | ok t => exact ⟨t, rfl, rfl, rfl, fun _ _ => rfl⟩
  | error e =>
    rw [hs] at hok
    cases hok

/-- Next states of a `CMP`, an `IRET`, a `CALL` and an `ADD`, and a poll that answers: the premises of OnlyCmpAndIretWriteFlags,
OnlyServiceAndIretWriteIe, OutputOnlyGrowsAndParamsStay, OnlyCallWritesRawCells and SequentialInstructionsAdvancePc. -/
theorem witness_next_states :
    (∃ t, exec (.cmp 0 1) State.reset = .next t) ∧ (∃ t, exec .iret iretFrame = .next t) ∧ (∃ t, exec (.call 1) State.reset = .next t) ∧
    (∃ t, exec (.add 0 1) State.reset = .next t) ∧ (∃ t, pollPhase (withDraw Config.Draw.quiet) = .ok t) ∧ isConditionalJump (.add 0 1) = false ∧
    setsPc ((Instr.add 0 1).opcode defaultOpMap) = false := ⟨⟨_, rfl⟩, ⟨_, rfl⟩, ⟨_, rfl⟩, ⟨_, rfl⟩, ⟨_, rfl⟩, rfl, by decide⟩

/-- `CALL` makes a cell Raw that was not. -/
theorem witness_OnlyCallWritesRawCells :
    (match exec (.call 1) State.reset with
      | .next t => t.cellAt 0xF3
      | _ => .byte 0) = .raw 2 ∧ State.reset.cellAt 0xF3 ≠ .raw 2 := by decide

/-- A step that answers a next state, for OutputOnlyGrowsAndParamsStay and StepKeepsInvariant. -/
theorem witness_step_next : (offAt 0 [0x01]).Inv ∧ after (offAt 0 [0x01]) (fun t => t.pc) = some 1 := by decide

/-- One fault of each kind an instruction can raise. -/
theorem witness_FaultsComeFromTheirInstructions :
    exec (.mod 0 1) State.reset = .fault (.arithmeticFault 0) ∧ exec (.push 0) (State.reset.setReg .r7 0) = .fault (.stackFault (-1)) ∧
    exec (.ld 0 1) State.reset = .fault (.tagFault 0) ∧ exec (.jmp 8) State.reset = .fault (.decodeError 8) :=
  ⟨rfl, rfl, rfl, rfl⟩

theorem witness_ResetHasInvariant : isOk (load [['1']] State.reset) = true := by decide

theorem witness_LoaderPlacesBytesFromZero : parseProgram [['1'], ['1', '1']] = .ok [1, 3] := rfl

/-- Valid lines, one line too many, and an invalid line. -/
theorem witness_LoaderAcceptsBinaryLines :
    (∀ l ∈ dataLines [List.replicate 8 '1'], l ≠ [] ∧ l.length ≤ 8 ∧ ∀ c ∈ l, c = '0' ∨ c = '1') ∧ (dataLines [List.replicate 8 '1']).length ≤ 256 ∧
    256 < (dataLines (List.replicate 257 ['1'])).length ∧
    (∃ l ∈ dataLines [List.replicate 9 '1'], ¬ (l ≠ [] ∧ l.length ≤ 8 ∧ ∀ c ∈ l, c = '0' ∨ c = '1')) := by
  have h : stripSpace (stripComment ['1']) = ['1'] := by decide
  have hlen : ∀ n, (dataLines (List.replicate n ['1'])).length = n := fun n => by simp [dataLines, h]
  have h8 : dataLines [List.replicate 8 '1'] = [List.replicate 8 '1'] := by decide
  have h9 : dataLines [List.replicate 9 '1'] = [List.replicate 9 '1'] := by decide
  refine ⟨fun l hl => ?_, by rw [h8]; decide, by rw [hlen]; omega, ?_⟩
  · rw [h8, List.mem_singleton] at hl
    subst hl
    exact ⟨by decide, by decide, fun c hc => .inr (List.eq_of_mem_replicate hc)⟩
  · rw [h9]
    exact ⟨_, List.mem_singleton.mpr rfl, fun hv => absurd hv.2.1 (by decide)⟩

/-- A bound of one iteration, reached by a machine that is still running. -/
theorem witness_RunAnswersAsItsIterationsEnd_bound : runBounded (some ⟨1, by decide⟩) 1 (offAt 0 [0x01]) = .cancelled [] [] := rfl

/-- A run that halts, for RunAnswersAsItsIterationsEnd. -/
theorem witness_RunAnswersAsItsIterationsEnd : (offAt 0 []).status = .running ∧ run 1 (offAt 0 []) = .halted [] [] ∧ run 0 (offAt 0 []) = .outOfFuel (offAt 0 []) :=
  ⟨rfl, rfl, rfl⟩

end Sys2Proof.Tests
end

/-! # Proofs: encoding, decoding and the dispatch of the decoded instruction -/

namespace Sys2Proof

/-! ## When the lookup and the decoder answer -/

/-- Under a valid `OPMAP` the lookup answers exactly with the row whose opcode byte it is given (spec/30_encoding.md R65). -/
theorem lookup_eq_some_iff {m : Config.OpMap} (hm : OpMap.valid m) {opcode a b : Byte} {i : Instr} :
    lookup m opcode a b = some i ↔ i ∈ rows a b ∧ i.opcode m = opcode := by
  constructor
  · intro h
    obtain ⟨hrow, hopcode, -⟩ := lookup_some h
    exact ⟨hrow, hopcode⟩
  · rintro ⟨hrow, rfl⟩
    obtain ⟨hcount, hkey⟩ := i.opcode_fields m
    have hfind := find_key (Instr.key m) (by rw [rows_keys]; exact hm) hrow
    simp only [lookup, hkey, hfind, hcount, if_true]

/-- The decoder answers when the announced operand bytes are there and the lookup answers (spec/30_encoding.md R68). -/
theorem decode_cons_eq_ok_iff {m : Config.OpMap} {opcode : Byte} {operands rest : List Byte} {i : Instr} :
    decode m (opcode :: operands) = .ok (i, rest) ↔
      operandCount opcode ≤ operands.length ∧ lookup m opcode (operands.getD 0 0) (operands.getD 1 0) = some i ∧
        operands.drop (operandCount opcode) = rest := by
  by_cases hlen : operands.length < operandCount opcode
  · simp [decode, hlen, Nat.not_le.mpr hlen]
  · simp only [decode, hlen, if_false, Nat.not_lt.mp hlen, true_and]
    cases lookup m opcode (operands.getD 0 0) (operands.getD 1 0) <;> simp

/-- The decoder rejects the opcode byte when its operand bytes are there and the lookup has no answer (spec/30_encoding.md R66). -/
theorem decode_cons_of_lookup_eq_none {m : Config.OpMap} {opcode : Byte} {operands : List Byte}
    (hlen : operandCount opcode ≤ operands.length) (hl : lookup m opcode (operands.getD 0 0) (operands.getD 1 0) = none) :
    decode m (opcode :: operands) = .error (.illegalOpcode opcode) := by
  simp only [decode, Nat.not_lt.mpr hlen, if_false, hl]

/-! ## Decoding and encoding -/

/-- The decoder looks at the first two bytes only, with a filler where there are fewer; an instruction's operands are never the filler. -/
theorem take_getD_pair {α : Type} {l : List α} {d : α} {n : Nat} (htwo : n ≤ 2) (hlen : n ≤ l.length) :
    [l.getD 0 d, l.getD 1 d].take n = l.take n := by
  match l with
  | [] => rw [Nat.le_zero.mp hlen, List.take_zero, List.take_zero]
  | [x] => exact List.take_append_of_le_length (l₁ := [x]) (l₂ := [d]) hlen
  | x :: y :: tail => exact (List.take_append_of_le_length (l₁ := [x, y]) (l₂ := tail) htwo).symm

/-- A row made from the first two of the bytes that follow holds the first of those bytes as its operands. -/
theorem operandBytes_eq_take {operands : List Byte} {i : Instr} (hrow : i ∈ rows (operands.getD 0 0) (operands.getD 1 0))
    (hlen : i.operandBytes.length ≤ operands.length) : i.operandBytes = operands.take i.operandBytes.length := by
  have htake := rows_operandBytes hrow
  have htwo : i.operandBytes.length ≤ 2 := htake ▸ List.length_take_le' _ _
  exact htake.trans (take_getD_pair htwo hlen)

/-- What the decoder reads is an encoding, under every `OPMAP`. -/
theorem eq_encode_append_of_decode {m : Config.OpMap} {bytes rest : List Byte} {i : Instr} (h : decode m bytes = .ok (i, rest)) :
    bytes = encode m i ++ rest := by
  cases bytes with
  | nil => simp [decode] at h
  | cons opcode operands =>
    obtain ⟨hlen, hl, rfl⟩ := decode_cons_eq_ok_iff.mp h
    obtain ⟨hrow, rfl, hcount⟩ := lookup_some hl
    rw [← hcount] at hlen ⊢
    have hop := operandBytes_eq_take hrow hlen
    calc i.opcode m :: operands
        = i.opcode m :: (operands.take i.operandBytes.length ++ operands.drop i.operandBytes.length) := by rw [List.take_append_drop]
      _ = encode m i ++ operands.drop i.operandBytes.length := by rw [← hop]; rfl

/-- Under a valid `OPMAP` the decoder reads back every instruction, and leaves what follows it. -/
theorem decode_encode_append {m : Config.OpMap} (hm : OpMap.valid m) (i : Instr) (rest : List Byte) :
    decode m (encode m i ++ rest) = .ok (i, rest) := by
  have hcount := (i.opcode_fields m).1
  refine decode_cons_eq_ok_iff.mpr ⟨?_, lookup_opcode hm i rest, ?_⟩
  · simp [hcount]
  · simp [hcount]

/-! ## The legal opcode bytes -/

/-- The opcode bytes of the 34 rows, in the order of R64's tables; operand bytes play no part in them. -/
def legalOpcodes (m : Config.OpMap) : List Byte := (rows 0 0).map (Instr.opcode m)

theorem legalOpcodes_length (m : Config.OpMap) : (legalOpcodes m).length = 34 := rfl

theorem mem_legalOpcodes_iff {m : Config.OpMap} {opcode : Byte} (a b : Byte) :
    opcode ∈ legalOpcodes m ↔ ∃ i ∈ rows a b, i.opcode m = opcode := by
  have hrows : legalOpcodes m = (rows a b).map (Instr.opcode m) := rfl
  rw [hrows, List.mem_map]

/-- Under a valid `OPMAP` the legal bytes differ, because the keys they give do. -/
theorem legalOpcodes_nodup {m : Config.OpMap} (hm : OpMap.valid m) : (legalOpcodes m).Nodup := by
  have hkeys : (legalOpcodes m).map keyOf = (rows 0 0).map (Instr.key m) := by
    rw [legalOpcodes, List.map_map]
    exact List.map_congr_left fun i _ => (i.opcode_fields m).2
  have hpairs : ((legalOpcodes m).map keyOf).Nodup := hkeys ▸ hm
  exact List.Pairwise.of_map keyOf (fun _ _ hne heq => hne (congrArg keyOf heq)) hpairs

theorem legalOpcodes_default : legalOpcodes Machine.defaultOpMap =
    [0xA0, 0xA1, 0xA2, 0xA3, 0xA4, 0x65, 0x66, 0xA7, 0xA8, 0x69, 0xAA, 0xAB, 0xAC, 0xAD,
      0x50, 0x11, 0x52, 0x13, 0x54, 0x55, 0x56, 0x57, 0x58, 0x59, 0x5A,
      0x00, 0x01, 0x82, 0x83, 0x84, 0x45, 0x46, 0x47, 0x48] := by decide

theorem decode_of_mem_legalOpcodes {m : Config.OpMap} (hm : OpMap.valid m) {opcode : Byte} {operands : List Byte}
    (hlen : operandCount opcode ≤ operands.length) (h : opcode ∈ legalOpcodes m) :
    ∃ i, decode m (opcode :: operands) = .ok (i, operands.drop (operandCount opcode)) ∧ i.opcode m = opcode := by
  obtain ⟨i, hrow, hopcode⟩ := (mem_legalOpcodes_iff (operands.getD 0 0) (operands.getD 1 0)).mp h
  exact ⟨i, decode_cons_eq_ok_iff.mpr ⟨hlen, (lookup_eq_some_iff hm).mpr ⟨hrow, hopcode⟩, rfl⟩, hopcode⟩

/-- A byte that no row has is rejected, under every `OPMAP` (spec/30_encoding.md R66). -/
theorem decode_of_not_mem_legalOpcodes {m : Config.OpMap} {opcode : Byte} {operands : List Byte}
    (hlen : operandCount opcode ≤ operands.length) (h : opcode ∉ legalOpcodes m) :
    decode m (opcode :: operands) = .error (.illegalOpcode opcode) := by
  refine decode_cons_of_lookup_eq_none hlen (Option.eq_none_iff_forall_ne_some.mpr fun i hl => h ?_)
  obtain ⟨hrow, hopcode, -⟩ := lookup_some hl
  exact (mem_legalOpcodes_iff _ _).mpr ⟨i, hrow, hopcode⟩

end Sys2Proof

namespace Sys2Proof.Machine

/-! ## Fetching an encoding -/

/-- The fetch finds the instruction whose encoding stands at `pc` (spec/40_fetch_decode_dispatch.md R94, R95). -/
theorem fetch_of_bytesAt_encode {s : State} {i : Instr} (hm : OpMap.valid s.params.opMap)
    (hb : BytesAt s s.pc (encode s.params.opMap i)) : fetch s = .ok (some i) := by
  obtain ⟨hpc, hopcode, hoperands⟩ := hb
  have hfetch : fetchOperands (operandCount (i.opcode s.params.opMap)) (s.pc + 1) s = .ok i.operandBytes :=
    (fetchOperands_eq_ok s _ _ _).mpr ⟨(i.opcode_fields _).1.symm, hoperands⟩
  have hdecode : decode s.params.opMap (i.opcode s.params.opMap :: i.operandBytes) = .ok (i, []) := by
    simpa [encode] using decode_encode_append hm i []
  rw [fetch_byte hpc hopcode hfetch, hdecode]

/-- When the fetch finds an instruction, that instruction's meaning is all that is left of the step. -/
theorem fetchAndExecute_of_fetch {s : State} {i : Instr} (h : fetch s = .ok (some i)) : fetchAndExecute s = exec i s := by
  simp [fetchAndExecute, h]

end Sys2Proof.Machine

namespace Sys2Proof.Proofs

open Sys2Proof.Machine

/-- Settles O1: what the decoder reads is an encoding, and it reads every encoding back. -/
theorem decodeIsInverseOfEncode : Obligations.DecodeIsInverseOfEncode := by
  intro m bytes i rest hm
  constructor
  · exact eq_encode_append_of_decode
  · rintro rfl
    exact decode_encode_append hm i rest

/-- Settles O3, with the opcode bytes of the 34 rows as the legal bytes. -/
theorem exactlyThirtyFourOpcodesDecode : Obligations.ExactlyThirtyFourOpcodesDecode := by
  intro m hm
  refine ⟨legalOpcodes m, legalOpcodes_length m, legalOpcodes_nodup hm, ?_, fun opcode operands hlen => ⟨?_, ?_⟩⟩
  · rintro rfl b
    rw [legalOpcodes_default]
  · exact decode_of_mem_legalOpcodes hm hlen
  · exact decode_of_not_mem_legalOpcodes hlen

/-- Settles O5: after the poll the step is the fetch of the encoded instruction, then its meaning. -/
theorem stepRunsDecodedInstruction : Obligations.StepRunsDecodedInstruction := by
  intro s s1 i hs hpoll hs1 hm hbytes
  rw [step_of_poll hs hpoll hs1]
  exact fetchAndExecute_of_fetch (fetch_of_bytesAt_encode hm hbytes)

end Sys2Proof.Proofs

/-! # Proofs: what every instruction and every step keeps -/

namespace Sys2Proof.Machine

/-! ## What an instruction does to `pc`, the flags, `IE` and the output -/

/-- All an instruction can do beside memory and registers, which `exec_mem` and the meanings speak of: `CMP` writes `FL`, `PRA` and `PRN` append
output, `IRET` returns, and every other instruction writes at most memory, registers and a `pc` that is the next instruction's address, a register's
value or the payload of a Raw cell. -/
inductive ExecEffect (s : State) : Instr → State → Prop where
  | cmp (a b x y : Byte) : ExecEffect s (.cmp a b) ((s.setFlags (compareFlags x y)).advance 3)
  | pra (a c : Byte) : ExecEffect s (.pra a) ((s.appendAcc c).advance 2)
  | prn (a : Byte) (d : List Char) : ExecEffect s (.prn a) ((s.appendPrn d).advance 2)
  | iret {t : State} (h : interruptReturn s = .ok t) : ExecEffect s .iret t
  | other {i : Instr} {t : State} (hi : i ≠ .iret) (hrest : t = { s with mem := t.mem, regs := t.regs, pc := t.pc })
      (hpc : t.pc = s.pc + 1 + i.operandBytes.length ∨ t.pc ≤ 255 ∨ ∃ a, s.cellAt a = .raw t.pc) : ExecEffect s i t

/-- The case of an instruction that advances past its own bytes. -/
theorem ExecEffect.sequential {i : Instr} {s t : State} (hi : i ≠ .iret) (hrest : t = { s with mem := t.mem, regs := t.regs, pc := t.pc })
    (hpc : t.pc = s.pc + 1 + i.operandBytes.length) : ExecEffect s i t :=
  .other hi hrest (.inl hpc)

theorem ExecEffect.of_jumpIf {taken : Bool} {a : Byte} {i : Instr} {s t : State} (hi : i ≠ .iret) (hlen : i.operandBytes.length = 1)
    (h : jumpIf taken a s = .next t) : ExecEffect s i t := by
  obtain ⟨ra, -, rfl⟩ := jumpIf_next h
  refine .other hi rfl ?_
  cases taken
  · exact .inl (by rw [hlen]; rfl)
  · exact .inr (.inl (Byte.toNat_le _))

/-- Every instruction's next state is one of these. -/
theorem exec_effect {i : Instr} {s t : State} (h : exec i s = .next t) : ExecEffect s i t := by
  cases i with
  | add | sub | mul | div | and | or | xor | shl | shr =>
    obtain ⟨_, _, _, _, rfl⟩ := aluBinary_next h
    exact .sequential nofun rfl rfl
  | inc | dec | not =>
    obtain ⟨_, _, rfl⟩ := aluUnary_next h
    exact .sequential nofun rfl rfl
  | jmp | jeq | jne | jgt | jge | jlt | jle => exact .of_jumpIf nofun rfl h
  | mod =>
    obtain ⟨_, _, _, _, _, rfl⟩ := execMod_next h
    exact .sequential nofun rfl rfl
  | cmp =>
    obtain ⟨_, _, _, _, rfl⟩ := execCmp_next h
    exact .cmp _ _ _ _
  | call =>
    obtain ⟨_, _, _, rfl⟩ := execCall_next h
    exact .other nofun rfl (.inr (.inl (Byte.toNat_le _)))
  | ret =>
    obtain ⟨_, hcell, _, rfl⟩ := execRet_next h
    exact .other nofun rfl (.inr (.inr ⟨_, hcell⟩))
  | int =>
    obtain ⟨_, _, rfl⟩ := execInt_next h
    split <;> exact .sequential nofun rfl rfl
  | iret => exact .iret (finish_eq_next.mp h)
  | nop | hlt =>
    cases h
    exact .sequential nofun rfl rfl
  | ldi =>
    obtain ⟨_, _, rfl⟩ := execLdi_next h
    exact .sequential nofun rfl rfl
  | ld =>
    obtain ⟨_, _, _, _, _, _, rfl⟩ := execLd_next h
    exact .sequential nofun rfl rfl
  | st =>
    obtain ⟨_, _, _, _, rfl⟩ := execSt_next h
    exact .sequential nofun rfl rfl
  | push =>
    obtain ⟨_, _, _, rfl⟩ := execPush_next h
    exact .sequential nofun rfl rfl
  | pop =>
    obtain ⟨_, _, _, _, rfl⟩ := execPop_next h
    exact .sequential nofun rfl rfl
  | prn =>
    obtain ⟨_, _, rfl⟩ := execPrn_next h
    exact .prn _ _
  | pra =>
    obtain ⟨_, _, rfl⟩ := execPra_next h
    exact .pra _ _

/-- Only `CMP` and `IRET` write `FL` (spec/10_state.md R18). -/
theorem exec_fl {i : Instr} {s t : State} (h : exec i s = .next t) (hcmp : ∀ a b, i ≠ .cmp a b) (hiret : i ≠ .iret) : t.fl = s.fl := by
  cases exec_effect h with
  | cmp a b => exact absurd rfl (hcmp a b)
  | pra | prn => rfl
  | iret => exact absurd rfl hiret
  | other _ hrest => rw [hrest]

/-- `IRET` sets `IE`, and no other instruction writes it (spec/10_state.md R19). -/
theorem exec_ie {i : Instr} {s t : State} (h : exec i s = .next t) : t.ie = if i = .iret then true else s.ie := by
  cases exec_effect h with
  | cmp | pra | prn => rfl
  | iret hret =>
    obtain ⟨-, hie, -⟩ := interruptReturn_rest hret
    exact hie
  | other hi hrest => rw [hrest, if_neg hi]

/-- Only `PRA` writes `ACC` (spec/10_state.md R25). -/
theorem exec_acc {i : Instr} {s t : State} (h : exec i s = .next t) (hpra : ∀ a, i ≠ .pra a) : t.acc = s.acc := by
  cases exec_effect h with
  | pra a => exact absurd rfl (hpra a)
  | cmp | prn => rfl
  | iret hret =>
    obtain ⟨-, -, hacc, -⟩ := interruptReturn_rest hret
    exact hacc
  | other _ hrest => rw [hrest]

/-- Only `PRN` writes `PRNOUT` (spec/10_state.md R26). -/
theorem exec_prnOut {i : Instr} {s t : State} (h : exec i s = .next t) (hprn : ∀ a, i ≠ .prn a) : t.prnOut = s.prnOut := by
  cases exec_effect h with
  | prn a => exact absurd rfl (hprn a)
  | cmp | pra => rfl
  | iret hret =>
    obtain ⟨-, -, -, hprnOut, -⟩ := interruptReturn_rest hret
    exact hprnOut
  | other _ hrest => rw [hrest]

/-! ## Instructions under other flags and another `IE` -/

/-- The same state but for `FL` and `IE`: what `setFlags` and `setIe` have in common. -/
def State.mapControl (φ : Flags → Flags) (ι : Bool → Bool) (s : State) : State := { s with fl := φ s.fl, ie := ι s.ie }

@[simp] theorem State.mapControl_reg (φ : Flags → Flags) (ι : Bool → Bool) (s : State) (r : Reg) : (s.mapControl φ ι).reg r = s.reg r := rfl

@[simp] theorem State.mapControl_params (φ : Flags → Flags) (ι : Bool → Bool) (s : State) : (s.mapControl φ ι).params = s.params := rfl

theorem State.setFlags_eq_mapControl (s : State) (f : Flags) : s.setFlags f = s.mapControl (fun _ => f) id := rfl

theorem State.setIe_eq_mapControl (s : State) (v : Bool) : s.setIe v = s.mapControl id (fun _ => v) := rfl

/-- A second half that does not see the map of the first half's answer. -/
theorem Except.map_bind_eq_bind {α α' β : Type} {x : Except Fault α} {x' : Except Fault α'} {k : α → Except Fault β} {k' : α' → Except Fault β}
    {p : α → α'} (hx : x' = x.map p) (hk : ∀ a, k' (p a) = k a) : (x' >>= k') = (x >>= k) := by
  subst hx
  cases x with
  | error e => rfl
  | ok a => exact hk a

/-- Mapping both halves of a bind maps the bind. -/
theorem Except.bind_eq_map_bind {α α' β : Type} {x : Except Fault α} {x' : Except Fault α'} {k : α → Except Fault β} {k' : α' → Except Fault β}
    {p : α → α'} {q : β → β} (hx : x' = x.map p) (hk : ∀ a, k' (p a) = (k a).map q) : (x' >>= k') = (x >>= k).map q := by
  subst hx
  cases x with
  | error e => rfl
  | ok a => exact hk a

theorem finish_map (g : State → State) (x : Except Fault State) : finish (x.map g) = mapNext g (finish x) := by
  cases x <;> rfl

theorem withReg_map {g : State → State} {a : Byte} {f f' : Reg → Except Fault State} (h : ∀ ra, f' ra = (f ra).map g) :
    withReg a f' = mapNext g (withReg a f) := by
  obtain rfl : f' = fun ra => (f ra).map g := funext h
  rw [withReg, withReg, ← finish_map]
  cases reg a <;> rfl

theorem withRegs_map {g : State → State} {a b : Byte} {f f' : Reg → Reg → Except Fault State} (h : ∀ ra rb, f' ra rb = (f ra rb).map g) :
    withRegs a b f' = mapNext g (withRegs a b f) := by
  obtain rfl : f' = fun ra rb => (f ra rb).map g := funext fun ra => funext (h ra)
  rw [withRegs, withRegs, ← finish_map]
  cases reg a with
  | error e => rfl
  | ok ra => cases reg b <;> rfl

section
variable (φ : Flags → Flags) (ι : Bool → Bool) (s : State)

theorem readByte_mapControl (a : Nat) : readByte a (s.mapControl φ ι) = (readByte a s).map id := by
  cases h : readByte a s <;> exact h

theorem memWrite_mapControl (a : Nat) (c : Cell) : memWrite a c (s.mapControl φ ι) = (memWrite a c s).map (State.mapControl φ ι) := by
  unfold memWrite
  split <;> rfl

theorem decrementSp_mapControl : decrementSp (s.mapControl φ ι) = (decrementSp s).map (State.mapControl φ ι) := by
  unfold decrementSp
  rw [State.mapControl_reg]
  split <;> rfl

theorem incrementSp_mapControl : incrementSp (s.mapControl φ ι) = (incrementSp s).map (State.mapControl φ ι) := by
  unfold incrementSp
  rw [State.mapControl_reg]
  split <;> rfl

theorem push_mapControl (c : Cell) : push c (s.mapControl φ ι) = (push c s).map (State.mapControl φ ι) :=
  Except.bind_eq_map_bind (decrementSp_mapControl φ ι s) fun s1 => memWrite_mapControl φ ι s1 _ c

theorem pop_mapControl : pop (s.mapControl φ ι) = (pop s).map (Prod.map id (State.mapControl φ ι)) := by
  rw [pop_eq, pop_eq, State.mapControl_reg]
  split <;> rfl

theorem popByte_mapControl : popByte (s.mapControl φ ι) = (popByte s).map (Prod.map id (State.mapControl φ ι)) := by
  refine Except.bind_eq_map_bind (pop_mapControl φ ι s) fun p => ?_
  obtain ⟨_ | _, _⟩ := p <;> rfl

theorem popRaw_mapControl : popRaw (s.mapControl φ ι) = (popRaw s).map (Prod.map id (State.mapControl φ ι)) := by
  refine Except.bind_eq_map_bind (pop_mapControl φ ι s) fun p => ?_
  obtain ⟨_ | _, _⟩ := p <;> rfl

theorem popRegs_mapControl (rs : List Reg) : popRegs rs (s.mapControl φ ι) = (popRegs rs s).map (State.mapControl φ ι) := by
  induction rs generalizing s with
  | nil => rfl
  | cons r rs ih => exact Except.bind_eq_map_bind (popByte_mapControl φ ι s) fun p => ih (p.2.setReg r p.1)

theorem aluBinary_mapControl (f : Byte → Byte → Byte) (a b : Byte) :
    aluBinary f a b (s.mapControl φ ι) = mapNext (State.mapControl φ ι) (aluBinary f a b s) :=
  withRegs_map fun _ _ => rfl

theorem aluUnary_mapControl (f : Byte → Byte) (a : Byte) :
    aluUnary f a (s.mapControl φ ι) = mapNext (State.mapControl φ ι) (aluUnary f a s) :=
  withReg_map fun _ => rfl

theorem jumpIf_mapControl (taken : Bool) (a : Byte) :
    jumpIf taken a (s.mapControl φ ι) = mapNext (State.mapControl φ ι) (jumpIf taken a s) :=
  withReg_map fun _ => by cases taken <;> rfl

theorem execMod_mapControl (a b : Byte) : execMod a b (s.mapControl φ ι) = mapNext (State.mapControl φ ι) (execMod a b s) :=
  withRegs_map fun _ _ => by
    rw [State.mapControl_reg]
    split <;> rfl

theorem execCall_mapControl (a : Byte) : execCall a (s.mapControl φ ι) = mapNext (State.mapControl φ ι) (execCall a s) :=
  withReg_map fun _ => Except.bind_eq_map_bind (push_mapControl φ ι s _) fun _ => rfl

theorem execRet_mapControl : execRet (s.mapControl φ ι) = mapNext (State.mapControl φ ι) (execRet s) := by
  rw [execRet, execRet, ← finish_map]
  exact congrArg finish (Except.bind_eq_map_bind (popRaw_mapControl φ ι s) fun _ => rfl)

theorem execInt_mapControl (a : Byte) : execInt a (s.mapControl φ ι) = mapNext (State.mapControl φ ι) (execInt a s) :=
  withReg_map fun ra => by
    by_cases hn : (s.reg ra).toNat ≤ 7
    · simp only [State.mapControl_reg, hn, if_true]
      rfl
    · simp only [State.mapControl_reg, hn, if_false]
      rfl

theorem execLd_mapControl (a b : Byte) : execLd a b (s.mapControl φ ι) = mapNext (State.mapControl φ ι) (execLd a b s) :=
  withRegs_map fun _ _ => Except.bind_eq_map_bind (readByte_mapControl φ ι s _) fun _ => rfl

theorem execSt_mapControl (a b : Byte) : execSt a b (s.mapControl φ ι) = mapNext (State.mapControl φ ι) (execSt a b s) :=
  withRegs_map fun _ _ => Except.bind_eq_map_bind (memWrite_mapControl φ ι s _ _) fun _ => rfl

theorem execPush_mapControl (a : Byte) : execPush a (s.mapControl φ ι) = mapNext (State.mapControl φ ι) (execPush a s) :=
  withReg_map fun _ => Except.bind_eq_map_bind (decrementSp_mapControl φ ι s) fun s1 =>
    Except.bind_eq_map_bind (memWrite_mapControl φ ι s1 _ _) fun _ => rfl

theorem execPop_mapControl (a : Byte) : execPop a (s.mapControl φ ι) = mapNext (State.mapControl φ ι) (execPop a s) :=
  withReg_map fun ra => Except.bind_eq_map_bind (readByte_mapControl φ ι s _) fun v =>
    Except.bind_eq_map_bind (incrementSp_mapControl φ ι (s.setReg ra v)) fun _ => rfl

/-- `IRET` writes both `FL` and `IE`, and reads neither. -/
theorem interruptReturn_mapControl : interruptReturn (s.mapControl φ ι) = interruptReturn s := by
  refine Except.map_bind_eq_bind (popRegs_mapControl φ ι s _) fun s1 => Except.map_bind_eq_bind (popRaw_mapControl φ ι s1) fun p => ?_
  simp only [Prod.map, id, State.mapControl_params]
  cases flagsOfWord s.params.flagBits p.1 with
  | none => rfl
  | some f => exact Except.map_bind_eq_bind (popRaw_mapControl φ ι p.2) fun _ => rfl

end

/-- Every instruction but `IRET` carries a change of `IE` along, and one that neither tests nor writes the flags carries a change of them along too. -/
theorem exec_mapControl (φ : Flags → Flags) (ι : Bool → Bool) {i : Instr} (s : State) (hiret : i ≠ .iret)
    (hφ : φ = id ∨ (isConditionalJump i = false ∧ ∀ a b, i ≠ .cmp a b)) :
    exec i (s.mapControl φ ι) = mapNext (State.mapControl φ ι) (exec i s) := by
  cases i with
  | add | sub | mul | div | and | or | xor | shl | shr => exact aluBinary_mapControl φ ι s _ _ _
  | inc | dec | not => exact aluUnary_mapControl φ ι s _ _
  | jmp => exact jumpIf_mapControl φ ι s _ _
  | jeq | jne | jgt | jge | jlt | jle =>
    obtain rfl : φ = id := hφ.resolve_right fun h => nomatch h.1
    exact jumpIf_mapControl id ι s _ _
  | cmp a b =>
    obtain rfl : φ = id := hφ.resolve_right fun h => h.2 a b rfl
    exact withRegs_map fun _ _ => rfl
  | mod => exact execMod_mapControl φ ι s _ _
  | call => exact execCall_mapControl φ ι s _
  | ret => exact execRet_mapControl φ ι s
  | int => exact execInt_mapControl φ ι s _
  | iret => exact absurd rfl hiret
  | nop | hlt => rfl
  | ldi => exact withReg_map fun _ => rfl
  | ld => exact execLd_mapControl φ ι s _ _
  | st => exact execSt_mapControl φ ι s _ _
  | push => exact execPush_mapControl φ ι s _
  | pop => exact execPop_mapControl φ ι s _
  | prn | pra => exact withReg_map fun _ => rfl

theorem exec_iret_mapControl (φ : Flags → Flags) (ι : Bool → Bool) (s : State) : exec .iret (s.mapControl φ ι) = exec .iret s :=
  congrArg finish (interruptReturn_mapControl φ ι s)

/-! ## What a poll leaves alone -/

theorem pollPhase_of_enabled {s : State} (h : s.ie = true) : pollPhase s = poll s := if_pos h

theorem pollPhase_of_disabled {s : State} (h : s.ie = false) : pollPhase s = .ok s := if_neg (ne_true_of_eq_false h)

/-- A poll, with or without a service, leaves the flags, the output and the parameters. -/
theorem pollPhase_rest {s t : State} (h : pollPhase s = .ok t) : t.fl = s.fl ∧ t.acc = s.acc ∧ t.prnOut = s.prnOut ∧ t.params = s.params := by
  rcases pollPhase_ok h with rfl | ⟨-, u, hu, hfl, -, -, hacc, hprnOut, hparams, -⟩
  · exact ⟨rfl, rfl, rfl, rfl⟩
  · rcases hu with rfl | ⟨n, hn, -, hservice⟩
    · exact ⟨hfl, hacc, hprnOut, hparams⟩
    · obtain ⟨-, hfl', hacc', hprnOut', -, hparams', -⟩ := service_rest hn hservice
      exact ⟨hfl'.trans hfl, hacc'.trans hacc, hprnOut'.trans hprnOut, hparams'.trans hparams⟩

/-- The timer source writes `IS` alone (spec/60_exceptions.md R183). -/
theorem pollTimer_frame (tick : Bool) (s : State) : Frame [.r6] [] s (pollTimer tick s) ∧ (pollTimer tick s).pc = s.pc := by
  cases tick with
  | false => exact ⟨⟨fun _ _ => rfl, fun _ _ => rfl, rfl, ⟨rfl, rfl⟩, rfl, rfl, rfl, rfl, rfl⟩, rfl⟩
  | true =>
    refine ⟨⟨fun r hr => ?_, fun _ _ => rfl, rfl, ⟨rfl, rfl⟩, rfl, rfl, rfl, rfl, rfl⟩, rfl⟩
    rw [pollTimer, if_pos rfl, raiseLine, State.setReg_reg, if_neg (List.ne_of_not_mem_cons hr)]

/-- The two sources write `IS` and the last-key cell alone (spec/60_exceptions.md R183, R184). -/
theorem State.polled_frame (s : State) :
    Frame [.r6] [s.params.keyAddr.toNat] s.consumeDraw s.polled ∧ s.polled.pc = s.pc := by
  obtain ⟨⟨hregs, hcells, hfl, hout, hcontrol⟩, hpc⟩ := pollTimer_frame s.draw.tick s.consumeDraw
  unfold State.polled
  cases s.draw.key with
  | none => exact ⟨⟨hregs, fun a _ => hcells a List.not_mem_nil, hfl, hout, hcontrol⟩, hpc⟩
  | some c =>
    refine ⟨⟨fun r hr => ?_, fun a ha => ?_, hfl, hout, hcontrol⟩, hpc⟩
    · have hne : r ≠ .r6 := List.ne_of_not_mem_cons hr
      simpa [raiseLine, hne] using hregs r hr
    · have hne : a ≠ s.params.keyAddr.toNat := List.ne_of_not_mem_cons ha
      simpa [raiseLine, pollTimer_params, hne] using hcells a List.not_mem_nil

/-- With `IM = 0` no line is active (spec/60_exceptions.md R186). -/
theorem serviceActive_of_mask_zero {s : State} (h : s.reg .r5 = 0#8) : serviceActive s = .ok s := by
  have hnone : lowestLine (s.reg .r5 &&& s.reg .r6) = none := lowestLine_none fun n _ => by simp [h]
  rw [serviceActive, hnone]

/-! ## A property of steps from the parts of a step -/

/-- A reflexive and transitive relation holds across a step when it holds across the poll, across halting, and across an instruction that was
fetched. -/
theorem step_rel (R : State → State → Prop) (refl : ∀ s, R s s) (trans : ∀ {s t u}, R s t → R t u → R s u)
    (hpoll : ∀ {s t}, pollPhase s = .ok t → R s t) (hhalt : ∀ s, R s (s.setStatus .halted))
    (hexec : ∀ {i s t}, fetch s = .ok (some i) → exec i s = .next t → R s t) {s t : State} (h : step s = .next t) : R s t := by
  rcases step_cases h with ⟨-, rfl⟩ | ⟨-, s1, hp, ⟨-, rfl⟩ | ⟨-, -, rfl⟩ | ⟨-, i, hfetch, hi⟩⟩
  · exact refl _
  · exact hpoll hp
  · exact trans (hpoll hp) (hhalt s1)
  · exact trans (hpoll hp) (hexec hfetch hi)

/-! ## Output and parameters over a step -/

/-- Output has only grown, and the parameters are the same. -/
def OutputGrown (s t : State) : Prop := s.acc <+: t.acc ∧ s.prnOut <+: t.prnOut ∧ t.params = s.params

theorem OutputGrown.refl (s : State) : OutputGrown s s := ⟨List.prefix_rfl, List.prefix_rfl, rfl⟩

theorem OutputGrown.trans {s t u : State} (h1 : OutputGrown s t) (h2 : OutputGrown t u) : OutputGrown s u := by
  obtain ⟨hacc1, hprn1, hpar1⟩ := h1
  obtain ⟨hacc2, hprn2, hpar2⟩ := h2
  exact ⟨hacc1.trans hacc2, hprn1.trans hprn2, hpar2.trans hpar1⟩

theorem OutputGrown.of_eq {s t : State} (hacc : t.acc = s.acc) (hprnOut : t.prnOut = s.prnOut) (hparams : t.params = s.params) :
    OutputGrown s t :=
  ⟨hacc ▸ List.prefix_rfl, hprnOut ▸ List.prefix_rfl, hparams⟩

theorem exec_outputGrown {i : Instr} {s t : State} (h : exec i s = .next t) : OutputGrown s t := by
  cases exec_effect h with
  | pra => exact ⟨List.prefix_append _ _, List.prefix_rfl, rfl⟩
  | prn => exact ⟨List.prefix_rfl, List.prefix_append _ _, rfl⟩
  | cmp => exact .refl s
  | iret hret =>
    obtain ⟨-, -, hacc, hprnOut, -, hparams, -⟩ := interruptReturn_rest hret
    exact .of_eq hacc hprnOut hparams
  | other _ hrest => exact .of_eq (by rw [hrest]) (by rw [hrest]) (by rw [hrest])

theorem step_outputGrown {s t : State} (h : step s = .next t) : OutputGrown s t := by
  refine step_rel OutputGrown .refl .trans (fun hp => ?_) (fun s => .refl s) (fun _ hi => exec_outputGrown hi) h
  obtain ⟨-, hacc, hprnOut, hparams⟩ := pollPhase_rest hp
  exact .of_eq hacc hprnOut hparams

/-! ## The invariant under the state's operations -/

/-- What the invariant says of memory: its canonical form (log 20) and bounded Raw cells (spec/10_state.md R31(d)). -/
def Memory.Sound (m : Memory) : Prop := Memory.wf m ∧ ∀ p ∈ m, p.2.bounded = true

theorem Memory.Sound.write {m : Memory} (h : m.Sound) {a : Nat} {c : Cell} (ha : a < 256) (hc : c.bounded = true) : (m.write a c).Sound := by
  obtain ⟨hwf, hbounded⟩ := h
  refine ⟨Memory.wf_write hwf ha, fun p hp => ?_⟩
  rcases Memory.mem_write hp with rfl | hp
  · exact hc
  · exact hbounded p hp

theorem State.inv_iff {s : State} : s.Inv ↔ s.fl.exclusive ∧ s.pc ≤ 256 ∧ Memory.Sound s.mem ∧ s.params.valid := by
  simp only [State.Inv, Memory.Sound, and_assoc]

theorem Cell.bounded_raw {n : Nat} (h : n ≤ 256) : (Cell.raw n).bounded = true := decide_eq_true h

theorem State.Inv.exclusive {s : State} (h : s.Inv) : s.fl.exclusive := h.1

theorem State.Inv.pc_le {s : State} (h : s.Inv) : s.pc ≤ 256 := h.2.1

theorem State.Inv.sound {s : State} (h : s.Inv) : Memory.Sound s.mem := (State.inv_iff.mp h).2.2.1

theorem State.Inv.params_valid {s : State} (h : s.Inv) : s.params.valid := (State.inv_iff.mp h).2.2.2

theorem State.Inv.setReg {s : State} (h : s.Inv) (r : Reg) (v : Byte) : (s.setReg r v).Inv := h

theorem State.Inv.setIe {s : State} (h : s.Inv) (v : Bool) : (s.setIe v).Inv := h

theorem State.Inv.setStatus {s : State} (h : s.Inv) (v : RunStatus) : (s.setStatus v).Inv := h

theorem State.Inv.setPc {s : State} (h : s.Inv) {n : Nat} (hn : n ≤ 256) : (s.setPc n).Inv :=
  State.inv_iff.mpr ⟨h.exclusive, hn, h.sound, h.params_valid⟩

theorem State.Inv.setCell {s : State} (h : s.Inv) {a : Nat} {c : Cell} (ha : a < 256) (hc : c.bounded = true) : (s.setCell a c).Inv :=
  State.inv_iff.mpr ⟨h.exclusive, h.pc_le, h.sound.write ha hc, h.params_valid⟩

/-- The Raw cell at any address, listed or not, is bounded (spec/10_state.md R31(d)). -/
theorem State.Inv.raw_le {s : State} (h : s.Inv) {a n : Nat} (hc : s.cellAt a = .raw n) : n ≤ 256 := by
  have hread : (s.cellAt a).bounded = true := Memory.read_of_forall (fun c => c.bounded = true) s.mem a rfl h.sound.2
  rw [hc] at hread
  exact of_decide_eq_true hread

/-! ## The service keeps the invariant -/

theorem push_inv {c : Cell} {s t : State} (hs : s.Inv) (hc : c.bounded = true) (h : push c s = .ok t) : t.Inv := by
  rw [push_eq] at h
  split at h
  · cases h
  · cases h
    exact (hs.setReg _ _).setCell (BitVec.isLt _) hc

theorem pushRegs_inv {rs : List Reg} {s t : State} (hs : s.Inv) (h : pushRegs rs s = .ok t) : t.Inv := by
  induction rs generalizing s with
  | nil =>
    cases h
    exact hs
  | cons r rs ih =>
    obtain ⟨s1, h1, h⟩ := Except.bind_eq_ok.mp h
    exact ih (push_inv hs rfl h1) h

theorem zeroRegs_inv {rs : List Reg} {s : State} (hs : s.Inv) : (zeroRegs rs s).Inv := by
  induction rs generalizing s with
  | nil => exact hs
  | cons r rs ih => exact ih (hs.setReg r 0#8)

/-- Exclusive flags make a word of one bit, so the saved word fits a Raw cell (spec/10_state.md R17). -/
theorem flagWord_le {bits : Config.FlagBits} {f : Flags} (h : f.exclusive) : flagWord bits f ≤ 256 := by
  have hbit : ∀ i : Fin 8, 2 ^ i.val ≤ 256 := by decide
  obtain ⟨l, g, e⟩ := f
  cases l <;> cases g <;> cases e <;> simp_all [flagWord, Flags.exclusive]

/-- The frame's Raw cells are `pc` and the flag word, both bounded (spec/60_exceptions.md R187). -/
theorem service_inv {n : Nat} {s t : State} (hs : s.Inv) (h : service n s = .ok t) : t.Inv := by
  simp only [service, Except.bind_eq_ok] at h
  obtain ⟨s2, hpush2, s3, hpush3, s4, hpush4, handler, -, ht⟩ := h
  have h1 : ((clearLine n s).setIe false).Inv := (hs.setReg _ _).setIe _
  have h2 : s2.Inv := push_inv h1 (Cell.bounded_raw h1.pc_le) hpush2
  have h3 : s3.Inv := push_inv h2 (Cell.bounded_raw (flagWord_le h2.exclusive)) hpush3
  have h4 : s4.Inv := pushRegs_inv h3 hpush4
  cases ht
  exact (zeroRegs_inv h4).setPc (Nat.le_of_lt handler.isLt)

theorem pollPhase_inv {s t : State} (hs : s.Inv) (h : pollPhase s = .ok t) : t.Inv := by
  rcases pollPhase_ok h with rfl | ⟨-, u, hu, hfl, hpc, -, -, -, hparams, hmem⟩
  · exact hs
  have husound : Memory.Sound u.mem := by
    rcases hmem with hmem | ⟨c, hmem⟩
    · exact hmem ▸ hs.sound
    · exact hmem ▸ hs.sound.write (BitVec.isLt _) rfl
  have hui : u.Inv := State.inv_iff.mpr ⟨hfl ▸ hs.exclusive, hpc ▸ hs.pc_le, husound, hparams ▸ hs.params_valid⟩
  rcases hu with rfl | ⟨n, -, -, hservice⟩
  · exact hui
  · exact service_inv hui hservice

/-! ## An instruction that was fetched keeps the invariant -/

/-- An instruction is fetched whole: the address after its bytes is at most 256. -/
theorem fetch_room {s : State} {i : Instr} (h : fetch s = .ok (some i)) : s.pc + 1 + i.operandBytes.length ≤ 256 := by
  obtain ⟨opcode, operands, rest, -, -, -, -, hdecode, hend⟩ := fetch_instr h
  obtain ⟨-, hlookup, -⟩ := decode_cons_eq_ok_iff.mp hdecode
  obtain ⟨-, -, hcount⟩ := lookup_some hlookup
  rwa [hcount]

/-- Flags and `pc` (spec/10_state.md R31 (b), (c)): an instruction that was fetched whole advances to 256 at most. -/
theorem exec_exclusive_and_pc_le {i : Instr} {s t : State} (hs : s.Inv) (hroom : s.pc + 1 + i.operandBytes.length ≤ 256) (h : exec i s = .next t) :
    t.fl.exclusive ∧ t.pc ≤ 256 := by
  cases exec_effect h with
  | cmp a b x y => exact ⟨compareFlags_exclusive x y, hroom⟩
  | pra | prn => exact ⟨hs.exclusive, hroom⟩
  | iret hret =>
    obtain ⟨-, -, -, -, -, -, -, -, hexcl, a, hcell⟩ := interruptReturn_rest hret
    exact ⟨hexcl, hs.raw_le hcell⟩
  | other _ hrest hpc =>
    refine ⟨by rw [hrest]; exact hs.exclusive, ?_⟩
    rcases hpc with hpc | hpc | ⟨a, hcell⟩
    · exact hpc ▸ hroom
    · omega
    · exact hs.raw_le hcell

/-- Memory (spec/10_state.md R31(d)) stays sound: the only Raw cell an instruction writes is `CALL`'s return address, and `CALL` was fetched whole. -/
theorem exec_mem_sound {i : Instr} {s t : State} (hs : s.Inv) (hroom : s.pc + 1 + i.operandBytes.length ≤ 256) (h : exec i s = .next t) :
    Memory.Sound t.mem := by
  rcases exec_mem h with hmem | ⟨a, b, hmem⟩ | ⟨⟨op, rfl⟩, hmem⟩
  · exact hmem ▸ hs.sound
  · exact hmem ▸ hs.sound.write a.isLt rfl
  · exact hmem ▸ hs.sound.write (BitVec.isLt _) (Cell.bounded_raw hroom)

theorem exec_inv {i : Instr} {s t : State} (hs : s.Inv) (hroom : s.pc + 1 + i.operandBytes.length ≤ 256) (h : exec i s = .next t) : t.Inv := by
  obtain ⟨hfl, hpc⟩ := exec_exclusive_and_pc_le hs hroom h
  obtain ⟨-, hparams, -⟩ := exec_rest h
  exact State.inv_iff.mpr ⟨hfl, hpc, exec_mem_sound hs hroom h, hparams ▸ hs.params_valid⟩

/-! ## The loader keeps the invariant -/

theorem loadBytes_inv {bytes : List Byte} {a : Nat} {s : State} (hs : s.Inv) (hroom : a + bytes.length ≤ 256) : (loadBytes a bytes s).Inv := by
  induction bytes generalizing a s with
  | nil => exact hs
  | cons b bytes ih =>
    rw [List.length_cons] at hroom
    exact ih (hs.setCell (by omega) rfl) (by omega)

/-- A program the loader accepts fits in memory (spec/30_encoding.md R79). -/
theorem parseProgram_length {lines : List (List Char)} {bytes : List Byte} (h : parseProgram lines = .ok bytes) : bytes.length ≤ 256 := by
  unfold parseProgram at h
  cases hp : parseLines (dataLines lines) with
  | error e =>
    rw [hp] at h
    cases h
  | ok parsed =>
    rw [hp] at h
    simp only [bind, Except.bind] at h
    split at h
    · cases h
    · cases h
      omega

theorem load_inv {lines : List (List Char)} {s t : State} (hs : s.Inv) (h : load lines s = .ok t) : t.Inv := by
  unfold load at h
  cases hp : parseProgram lines with
  | error e =>
    rw [hp] at h
    cases h
  | ok bytes =>
    rw [hp] at h
    cases h
    exact loadBytes_inv hs (by have := parseProgram_length hp; omega)

theorem reset_inv : State.reset.Inv := by decide

end Sys2Proof.Machine

namespace Sys2Proof.Proofs

open Sys2Proof.Machine

/-- Settles O53: the poll keeps the invariant, and so does every instruction that was fetched whole. -/
theorem stepKeepsInvariant : Obligations.StepKeepsInvariant := by
  intro s t hs h
  exact step_rel (fun s t => s.Inv → t.Inv) (fun _ => id) (fun h1 h2 hs => h2 (h1 hs)) (fun hp hs => pollPhase_inv hs hp)
    (fun _ hs => hs.setStatus _) (fun hfetch hi hs => exec_inv hs (fetch_room hfetch) hi) h hs

/-- Settles O43: the poll writes `IS` and the last-key cell, and with `IM = 0` there is nothing to service. -/
theorem noServiceWhileMaskIsZero : Obligations.NoServiceWhileMaskIsZero := by
  intro s hmask
  cases hie : s.ie with
  | false => exact ⟨s, pollPhase_of_disabled hie, rfl, hie, rfl, fun _ _ => rfl, fun _ _ => rfl, rfl, rfl⟩
  | true =>
    rw [pollPhase_of_enabled hie, poll_eq]
    split
    · obtain ⟨⟨hregs, hcells, hfl, hout, hie', -⟩, hpc⟩ := pollTimer_frame s.draw.tick s.consumeDraw
      exact ⟨_, rfl, hpc, hie'.trans hie, hfl, hregs, fun a _ => hcells a List.not_mem_nil, hout⟩
    · obtain ⟨⟨hregs, hcells, hfl, hout, hie', -⟩, hpc⟩ := s.polled_frame
      have hmask' : s.polled.reg .r5 = 0#8 := (hregs .r5 (by decide)).trans hmask
      exact ⟨s.polled, serviceActive_of_mask_zero hmask', hpc, hie'.trans hie, hfl, hregs, hcells, hout⟩

/-- Settles O46: the instructions' effects for who writes `FL`, and running them under changed flags for who reads it. -/
theorem onlyCmpAndIretWriteFlags : Obligations.OnlyCmpAndIretWriteFlags := by
  refine ⟨fun i s t h hcmp hiret => exec_fl h hcmp hiret, fun s t h => (pollPhase_rest h).1, fun i s f hjump hcmp hiret => ?_, ?_⟩
  · rw [State.setFlags_eq_mapControl]
    exact exec_mapControl (fun _ => f) id s hiret (.inr ⟨hjump, hcmp⟩)
  · rintro i s f (⟨a, b, rfl⟩ | rfl)
    · rfl
    · rw [State.setFlags_eq_mapControl, exec_iret_mapControl]

/-- Settles O47: the instructions' effects for who writes `IE`, the cases of a poll for the service, and running every instruction under a changed
`IE` for the readers there are not. -/
theorem onlyServiceAndIretWriteIe : Obligations.OnlyServiceAndIretWriteIe := by
  refine ⟨rfl, fun s => pollPhase_of_disabled, fun i s t => exec_ie, fun n s t hn h => (service_rest hn h).1, fun s t h => ?_,
    fun i s v hiret => ?_, fun s v => ?_⟩
  · rcases pollPhase_ok h with rfl | ⟨hie, u, rfl | ⟨n, hn, hactive, hservice⟩, -, -, hu, -⟩
    · exact .inl rfl
    · exact .inl hu
    · exact .inr ⟨hie, (service_rest hn hservice).1, u, n, hn, hactive, hservice⟩
  · rw [State.setIe_eq_mapControl]
    exact exec_mapControl id (fun _ => v) s hiret (.inl rfl)
  · rw [State.setIe_eq_mapControl, exec_iret_mapControl]

/-- Settles O48: over a step output grows by whatever its one instruction appends. -/
theorem outputOnlyGrowsAndParamsStay : Obligations.OutputOnlyGrowsAndParamsStay :=
  ⟨fun _ _ => step_outputGrown, fun _ _ _ => exec_acc, fun _ _ _ => exec_prnOut⟩

/-- Settles O54: memory is empty at reset, and the loader places at most 256 Byte cells. -/
theorem resetHasInvariant : Obligations.ResetHasInvariant :=
  ⟨reset_inv, fun _ _ => load_inv reset_inv⟩

/-- Settles O55: each value is read off the reset state. -/
theorem resetValues : Obligations.ResetValues := by
  refine ⟨rfl, rfl, rfl, rfl, rfl, rfl, fun r hr => ?_, rfl, fun a => rfl⟩
  cases r with
  | r7 => exact absurd rfl hr
  | r0 | r1 | r2 | r3 | r4 | r5 | r6 => rfl

end Sys2Proof.Proofs

/-! # Proofs: memory and the stack primitives -/

namespace Sys2Proof.Machine

/-- Where a write changes what is read, it is the written cell that is read, at the written address. -/
theorem Memory.eq_of_read_write_of_read_ne {m : Memory} {a b : Nat} {c d : Cell} (hnew : (m.write a c).read b = d) (hold : m.read b ≠ d) :
    b = a ∧ c = d := by
  rw [Memory.read_write] at hnew
  split at hnew
  · next heq => exact ⟨heq, hnew⟩
  · exact absurd hnew hold

theorem State.pushed_sp {s : State} (c : Cell) (h : s.reg .r7 ≠ 0#8) : ((s.pushed c).reg .r7).toNat = (s.reg .r7).toNat - 1 := by
  rw [State.pushed_reg, if_pos rfl, Byte.toNat_sub_one h]

theorem State.pushed_cellAt_top {s : State} (c : Cell) (h : s.reg .r7 ≠ 0#8) : (s.pushed c).cellAt ((s.reg .r7).toNat - 1) = c := by
  rw [State.pushed_cellAt, Byte.toNat_sub_one h, if_pos rfl]

/-- A push changes the stack pointer and the cell below the old one alone (spec/20_memory.md R56). -/
theorem State.pushed_frame {s : State} (c : Cell) (h : s.reg .r7 ≠ 0#8) : Frame [.r7] [(s.reg .r7).toNat - 1] s (s.pushed c) := by
  refine ⟨fun r hr => ?_, fun a ha => ?_, rfl, ⟨rfl, rfl⟩, rfl, rfl, rfl, rfl, rfl⟩
  · rw [State.pushed_reg, if_neg (List.ne_of_not_mem_cons hr)]
  · rw [State.pushed_cellAt, Byte.toNat_sub_one h, if_neg (List.ne_of_not_mem_cons ha)]

theorem State.popped_sp {s : State} (h : s.reg .r7 ≠ 255#8) : (s.popped.reg .r7).toNat = (s.reg .r7).toNat + 1 := by
  rw [State.popped_reg, if_pos rfl, Byte.toNat_add_one h]

/-- A pop changes the stack pointer alone (spec/20_memory.md R57). -/
theorem State.popped_frame (s : State) : Frame [.r7] [] s s.popped := by
  refine ⟨fun r hr => ?_, fun _ _ => rfl, rfl, ⟨rfl, rfl⟩, rfl, rfl, rfl, rfl, rfl⟩
  rw [State.popped_reg, if_neg (List.ne_of_not_mem_cons hr)]

/-- `VECTOR_BASE` leaves room for the eight vector slots (spec/00_scope.md R5). -/
theorem vectorSlot_le (s : State) {n : Nat} (hn : n < 8) : s.params.vectorBase.val + n ≤ 255 := by
  have hbase := s.params.vectorBase.isLt
  omega

end Sys2Proof.Machine

namespace Sys2Proof.Proofs

open Sys2Proof.Machine

/-- Settles O49, by what an instruction can do to memory: a cell that reads differently is the one written, and only `CALL` writes a Raw one. -/
theorem onlyCallWritesRawCells : Obligations.OnlyCallWritesRawCells := by
  intro i s t a n h hnew hold
  rw [State.cellAt] at hnew hold
  rcases exec_mem h with hmem | ⟨addr, b, hmem⟩ | ⟨hcall, hmem⟩
  · exact absurd (hmem ▸ hnew) hold
  · rw [hmem] at hnew
    obtain ⟨-, hbyte⟩ := Memory.eq_of_read_write_of_read_ne hnew hold
    exact nomatch hbyte
  · rw [hmem] at hnew
    obtain ⟨haddr, hraw⟩ := Memory.eq_of_read_write_of_read_ne hnew hold
    exact ⟨hcall, haddr, (Cell.raw.inj hraw).symm⟩

/-- Settles O10: the bounds check decides the answer, and a write within the bounds sets the one cell. -/
theorem memoryUnitReadsAndWrites : Obligations.MemoryUnitReadsAndWrites := by
  intro s a c
  refine ⟨fun hgt => ⟨memRead_of_gt s hgt, memWrite_of_gt c s hgt⟩, fun hle => ?_, fun v => ⟨memRead_byte v s, memWrite_byte v c s⟩,
    Byte.toNat_le _, fun _ => vectorSlot_le s⟩
  refine ⟨memRead_of_le s hle, s.setCell a c, memWrite_of_le c s hle, ?_, fun b hb => ?_, rfl⟩
  · rw [memRead_of_le _ hle, State.setCell_cellAt, if_pos rfl]
  · rw [State.setCell_cellAt, if_neg hb]

/-- Settles O11: a push answers the pushed state unless the stack pointer is 0. -/
theorem pushDecrementsThenWrites : Obligations.PushDecrementsThenWrites := by
  intro s c
  refine ⟨fun hsp => by rw [push_eq, if_pos hsp], fun hsp => ?_⟩
  exact ⟨s.pushed c, by rw [push_eq, if_neg hsp], State.pushed_sp c hsp, State.pushed_cellAt_top c hsp, rfl, State.pushed_frame c hsp⟩

/-- Settles O12: a pop answers the cell and the popped state unless the stack pointer is 255. -/
theorem popReadsThenIncrements : Obligations.PopReadsThenIncrements := by
  intro s
  refine ⟨fun hsp => by rw [pop_eq, if_pos hsp], fun hsp => ?_⟩
  exact ⟨s.popped, by rw [pop_eq, if_neg hsp], State.popped_sp hsp, rfl, s.popped_frame⟩

end Sys2Proof.Proofs

/-! # Proofs: unknown opcodes, the operand check, and the loader -/

namespace Sys2Proof

/-- A byte that is no instruction's opcode byte is rejected, under every `OPMAP` (spec/30_encoding.md R66). -/
theorem decode_of_forall_opcode_ne {m : Config.OpMap} {opcode : Byte} {operands : List Byte} (hlen : operandCount opcode ≤ operands.length)
    (h : ∀ i : Instr, i.opcode m ≠ opcode) : decode m (opcode :: operands) = .error (.illegalOpcode opcode) := by
  refine decode_of_not_mem_legalOpcodes hlen fun hmem => ?_
  obtain ⟨i, -, hopcode⟩ := (mem_legalOpcodes_iff 0 0).mp hmem
  exact h i hopcode

end Sys2Proof

namespace Sys2Proof.Machine

/-! ## A fault of the fetch -/

/-- When the fetch faults, the fault is all that is left of the step. -/
theorem fetchAndExecute_of_fetch_error {s : State} {e : Fault} (h : fetch s = .error e) : fetchAndExecute s = .fault e := by
  simp [fetchAndExecute, h]

/-! ## The operand check of every instruction -/

/-- How a meaning begins, given its register operands: with none it is a computation; with one or two it checks them all, A before B, and what
follows is that of an effect on the registers they name. -/
inductive ChecksOperands : List Byte → Outcome → Prop where
  | none (x : Except Fault State) : ChecksOperands [] (finish x)
  | one (a : Byte) (effect : Reg → Except Fault State) : ChecksOperands [a] (withReg a effect)
  | two (a b : Byte) (effect : Reg → Reg → Except Fault State) : ChecksOperands [a, b] (withRegs a b effect)

/-- Every instruction begins with the check of its register operands (spec/30_encoding.md R62, decision D11; log 13). -/
theorem exec_checksOperands (i : Instr) (s : State) : ChecksOperands i.registerOperands (exec i s) := by
  cases i with
  | nop | hlt => exact .none (.ok _)
  | ret | iret => exact .none _
  | inc | dec | not | call | int | jmp | jeq | jne | jgt | jlt | jle | jge | ldi | push | pop | prn | pra => exact .one _ _
  | add | sub | mul | div | mod | cmp | and | or | xor | shl | shr | ld | st => exact .two _ _ _

/-- The first register operand above 7 is the fault. -/
theorem ChecksOperands.fault_of_find {ops : List Byte} {o : Outcome} (h : ChecksOperands ops o) {op : Byte}
    (hop : ops.find? (fun b => decide (7 < b.toNat)) = some op) : o = .fault (.decodeError op.toNat) := by
  cases h with
  | none x => cases hop
  | one a effect =>
    obtain ⟨hgt, rfl⟩ : 7 < a.toNat ∧ a = op := by simpa using hop
    exact withReg_of_gt hgt effect
  | two a b effect =>
    by_cases ha : 7 < a.toNat
    · obtain rfl : a = op := by simpa [ha] using hop
      exact withRegs_of_gt_left b ha effect
    · obtain ⟨hgt, rfl⟩ : 7 < b.toNat ∧ b = op := by simpa [ha] using hop
      obtain ⟨ra, hra⟩ := reg_of_le (Nat.not_lt.mp ha)
      exact withRegs_of_gt_right hra hgt effect

theorem ChecksOperands.eq_finish {ops : List Byte} {o : Outcome} (h : ChecksOperands ops o) : ∃ x : Except Fault State, o = finish x := by
  cases h with
  | none x => exact ⟨x, rfl⟩
  | one | two => exact ⟨_, rfl⟩

/-! ## No refusal -/

/-- After the poll an iteration answers a next state or a fault (spec/40_fetch_decode_dispatch.md R92, R95, R98). -/
theorem fetchAndExecute_eq_finish (s : State) : ∃ x : Except Fault State, fetchAndExecute s = finish x := by
  unfold fetchAndExecute
  split
  · exact ⟨.error _, rfl⟩
  · exact ⟨.ok _, rfl⟩
  · exact (exec_checksOperands _ s).eq_finish

/-! ## Placing a program's bytes -/

/-- Loading bytes from `a` on changes nothing but memory. -/
theorem loadBytes_eq (a : Nat) (bytes : List Byte) (s : State) : loadBytes a bytes s = { s with mem := (loadBytes a bytes s).mem } := by
  induction bytes generalizing a s with
  | nil => rfl
  | cons b bytes ih => exact ih (a + 1) (s.setCell a (.byte b))

/-- Loading bytes from `a` on leaves every cell below and above them. -/
theorem loadBytes_cellAt_of_outside {a k : Nat} {bytes : List Byte} (s : State) (h : k < a ∨ a + bytes.length ≤ k) :
    (loadBytes a bytes s).cellAt k = s.cellAt k := by
  induction bytes generalizing a s with
  | nil => rfl
  | cons b bytes ih =>
    rw [List.length_cons] at h
    rw [loadBytes, ih _ (by omega), State.setCell_cellAt, if_neg (by omega)]

/-- The `k`-th of the loaded bytes stands `k` cells after the first. -/
theorem loadBytes_cellAt_add {k : Nat} {bytes : List Byte} (a : Nat) (s : State) (h : k < bytes.length) :
    (loadBytes a bytes s).cellAt (a + k) = .byte bytes[k] := by
  induction bytes generalizing a k s with
  | nil => cases h
  | cons b bytes ih =>
    cases k with
    | zero =>
      rw [Nat.add_zero, loadBytes, loadBytes_cellAt_of_outside _ (.inl a.lt_add_one), State.setCell_cellAt, if_pos rfl, List.getElem_cons_zero]
    | succ k =>
      have hat : a + (k + 1) = a + 1 + k := by omega
      rw [hat]
      exact ih (a + 1) _ (Nat.lt_of_succ_lt_succ h)

/-! ## Reading a data line -/

/-- "1 to 8 characters, each `0` or `1`" (spec/30_encoding.md R76). -/
def BinaryLine (l : List Char) : Prop := l ≠ [] ∧ l.length ≤ 8 ∧ ∀ c ∈ l, c = '0' ∨ c = '1'

/-- The base-2 numeral of a line, most significant digit first, continuing from a value. -/
def binaryNumeral (v : Nat) (l : List Char) : Nat := l.foldl (fun v c => 2 * v + (if c = '1' then 1 else 0)) v

theorem binaryDigit_of_binary {c : Char} (h : c = '0' ∨ c = '1') : binaryDigit c = some (if c = '1' then 1 else 0) := by
  rcases h with rfl | rfl <;> rfl

theorem binaryDigit_of_not_binary {c : Char} (h : ¬ (c = '0' ∨ c = '1')) : binaryDigit c = none := by
  obtain ⟨h0, h1⟩ := not_or.mp h
  rw [binaryDigit, if_neg h0, if_neg h1]

theorem binaryValue_of_binary {l : List Char} (v : Nat) (h : ∀ c ∈ l, c = '0' ∨ c = '1') : binaryValue v l = some (binaryNumeral v l) := by
  induction l generalizing v with
  | nil => rfl
  | cons c cs ih =>
    obtain ⟨hc, hcs⟩ := List.forall_mem_cons.mp h
    simp only [binaryValue, binaryDigit_of_binary hc]
    exact ih _ hcs

theorem binaryValue_of_not_binary {l : List Char} (v : Nat) (h : ¬ ∀ c ∈ l, c = '0' ∨ c = '1') : binaryValue v l = none := by
  induction l generalizing v with
  | nil => exact absurd (List.forall_mem_nil _) h
  | cons c cs ih =>
    by_cases hc : c = '0' ∨ c = '1'
    · have hcs : ¬ ∀ c ∈ cs, c = '0' ∨ c = '1' := fun hcs => h (List.forall_mem_cons.mpr ⟨hc, hcs⟩)
      simp only [binaryValue, binaryDigit_of_binary hc]
      exact ih _ hcs
    · simp only [binaryValue, binaryDigit_of_not_binary hc]

theorem parseLine_of_binary {l : List Char} (h : BinaryLine l) : parseLine l = .ok (trunc8 (binaryNumeral 0 l)) := by
  obtain ⟨hne, hlen, hdigits⟩ := h
  simp [parseLine, hne, Nat.not_lt.mpr hlen, binaryValue_of_binary 0 hdigits]

theorem parseLine_of_not_binary {l : List Char} (h : ¬ BinaryLine l) : parseLine l = .error .invalidEncoding := by
  unfold parseLine
  split
  · rfl
  · next hlen =>
    have hlen' : l ≠ [] ∧ l.length ≤ 8 := by simpa using hlen
    rw [binaryValue_of_not_binary 0 fun hdigits => h ⟨hlen'.1, hlen'.2, hdigits⟩]

/-! ## Reading the data lines -/

/-- The bytes are those of the data lines, one for one. -/
theorem parseLines_eq_ok_iff {ls : List (List Char)} {bytes : List Byte} :
    parseLines ls = .ok bytes ↔ ls.map parseLine = bytes.map .ok := by
  induction ls generalizing bytes with
  | nil => cases bytes <;> simp [parseLines]
  | cons l ls ih =>
    cases bytes with
    | nil =>
      cases hl : parseLine l <;> cases hls : parseLines ls <;> simp [parseLines, hl, hls, bind, Except.bind]
    | cons b bytes =>
      rw [List.map_cons, List.map_cons, List.cons.injEq, ← ih, parseLines]
      cases parseLine l with
      | error e => simp only [bind, Except.bind, reduceCtorEq, false_and]
      | ok b' =>
        cases parseLines ls with
        | error e => simp only [bind, Except.bind, reduceCtorEq, and_false]
        | ok bytes' => simp only [bind, Except.bind, Except.ok.injEq, List.cons.injEq]

theorem parseLines_of_binary {ls : List (List Char)} (h : ∀ l ∈ ls, BinaryLine l) :
    parseLines ls = .ok (ls.map fun l => trunc8 (binaryNumeral 0 l)) := by
  rw [parseLines_eq_ok_iff, List.map_map]
  exact List.map_congr_left fun l hl => parseLine_of_binary (h l hl)

/-- One invalid line makes the whole text invalid (spec/30_encoding.md R77). -/
theorem parseLines_of_not_binary {ls : List (List Char)} (h : ∃ l ∈ ls, ¬ BinaryLine l) : parseLines ls = .error .invalidEncoding := by
  induction ls with
  | nil => simp at h
  | cons l ls ih =>
    by_cases hl : BinaryLine l
    · have hls : ∃ l ∈ ls, ¬ BinaryLine l := by simpa [hl] using h
      rw [parseLines, parseLine_of_binary hl, ih hls]
      rfl
    · rw [parseLines, parseLine_of_not_binary hl]
      rfl

/-! ## Reading a program -/

/-- A text of valid lines is a program unless it is too large (spec/30_encoding.md R79). -/
theorem parseProgram_of_parseLines {lines : List (List Char)} {bytes : List Byte} (h : parseLines (dataLines lines) = .ok bytes) :
    parseProgram lines = if 256 < bytes.length then .error .programTooLarge else .ok bytes := by
  rw [parseProgram, h]
  rfl

theorem parseProgram_of_parseLines_error {lines : List (List Char)} {e : LoadError} (h : parseLines (dataLines lines) = .error e) :
    parseProgram lines = .error e := by
  rw [parseProgram, h]
  rfl

/-- A program's bytes are those of its data lines. -/
theorem parseLines_of_parseProgram {lines : List (List Char)} {bytes : List Byte} (h : parseProgram lines = .ok bytes) :
    parseLines (dataLines lines) = .ok bytes := by
  cases hp : parseLines (dataLines lines) with
  | error e => exact nomatch (parseProgram_of_parseLines_error hp).symm.trans h
  | ok parsed =>
    rw [parseProgram_of_parseLines hp] at h
    split at h
    · cases h
    · exact h

theorem load_of_parseProgram {lines : List (List Char)} {bytes : List Byte} (s : State) (h : parseProgram lines = .ok bytes) :
    load lines s = .ok (loadBytes 0 bytes s) := by
  rw [load, h]
  rfl

end Sys2Proof.Machine

namespace Sys2Proof.Proofs

open Sys2Proof.Machine

/-- Settles O8: the operands are fetched, then the decoder rejects the byte that no instruction has. -/
theorem unknownOpcodeFaults : Obligations.UnknownOpcodeFaults := by
  intro s s1 b operands hs hpoll hs1 hpc hcell hlen hbytes hopcode
  have hdecode : decode s1.params.opMap (b :: operands) = .error (.illegalOpcode b) := decode_of_forall_opcode_ne (Nat.le_of_eq hlen.symm) hopcode
  rw [step_of_poll hs hpoll hs1]
  refine fetchAndExecute_of_fetch_error ?_
  rw [fetch_byte hpc hcell ((fetchOperands_eq_ok s1 _ _ _).mpr ⟨hlen, hbytes⟩), hdecode]

/-- Settles O9: each meaning is an operand check, and the check faults at the first operand above 7. -/
theorem registerOperandsCheckedFirst : Obligations.RegisterOperandsCheckedFirst :=
  fun i s _ hop => (exec_checksOperands i s).fault_of_find hop

/-- Settles O52: the poll, the fetch and every meaning answer a state or a fault. -/
theorem noStepIsRefused : Obligations.NoStepIsRefused := by
  intro s
  unfold step
  split
  · split
    · exact ⟨.error _, rfl⟩
    · split
      · exact fetchAndExecute_eq_finish _
      · exact ⟨.ok _, rfl⟩
  · exact ⟨.ok s, rfl⟩
  · exact ⟨.ok s, rfl⟩
  · exact ⟨.error _, rfl⟩

/-- Settles O56: the bytes are the data lines' one for one, and `loadBytes` writes each at its own place. -/
theorem loaderPlacesBytesFromZero : Obligations.LoaderPlacesBytesFromZero := by
  intro lines bytes s h
  have hlines : (dataLines lines).map parseLine = bytes.map .ok :=
    parseLines_eq_ok_iff.mp (parseLines_of_parseProgram h)
  have hlength : bytes.length = (dataLines lines).length := by simpa only [List.length_map] using congrArg List.length hlines.symm
  refine ⟨loadBytes 0 bytes s, load_of_parseProgram s h, fun k hk => ?_, fun a ha => ?_, loadBytes_eq 0 bytes s, parseProgram_length h,
    hlength, fun k hk => ?_⟩
  · have hcell := loadBytes_cellAt_add 0 s hk
    rwa [Nat.zero_add] at hcell
  · exact loadBytes_cellAt_of_outside s (.inr (by omega))
  · have hk' : k < (dataLines lines).length := hlength ▸ hk
    calc parseLine ((dataLines lines).getD k [])
        = parseLine (dataLines lines)[k] := by rw [List.getElem_eq_getD []]
      _ = ((dataLines lines).map parseLine)[k]'(by rwa [List.length_map]) := by rw [List.getElem_map]
      _ = .ok bytes[k] := by simp only [hlines, List.getElem_map]

/-- Settles O57: each line is read as its numeral or is invalid, an invalid line decides, and after that the number of lines. -/
theorem loaderAcceptsBinaryLines : Obligations.LoaderAcceptsBinaryLines := by
  intro lines valid
  refine ⟨fun hvalid hlen => ?_, fun hvalid hlen => ?_, fun hinvalid => ?_⟩
  · rw [parseProgram_of_parseLines (parseLines_of_binary hvalid), List.length_map, if_neg (Nat.not_lt.mpr hlen)]
    rfl
  · rw [parseProgram_of_parseLines (parseLines_of_binary hvalid), List.length_map, if_pos hlen]
  · exact parseProgram_of_parseLines_error (parseLines_of_not_binary hinvalid)

end Sys2Proof.Proofs

/-! # Proofs: the halt check, the fetch's faults, the poll's faults, and the run -/

namespace Sys2Proof

/-! ## The opcode byte's fields -/

theorem operandCount_eq_shiftRight (b : Byte) : operandCount b = (b >>> 6).toNat := by
  rw [operandCount, BitVec.toNat_ushiftRight, Nat.shiftRight_eq_div_pow]

theorem opCode_eq_and (b : Byte) : opCode b = (b &&& 0x0F).toNat := by
  rw [opCode, BitVec.toNat_and]
  exact (Nat.and_two_pow_sub_one_eq_mod b.toNat 4).symm

theorem opCode_lt (b : Byte) : opCode b < 16 := Nat.mod_lt _ (by decide)

theorem operandCount_lt (b : Byte) : operandCount b < 4 := Nat.div_lt_of_lt_mul b.isLt

/-- The fields fill the eight bits, so the sum of the fields at their places does not wrap. -/
theorem toNat_eq_fields (b : Byte) :
    b.toNat = 64 * operandCount b + 32 * (isAlu b).toNat + 16 * (setsPc b).toNat + opCode b := by
  have hbyte := congrArg BitVec.toNat (opcodeByte_of_fields b ⟨opCode b, opCode_lt b⟩ rfl)
  rw [opcodeByte, trunc8, BitVec.toNat_ofNat] at hbyte
  dsimp only at hbyte
  have hcount := operandCount_lt b
  have hcode := opCode_lt b
  have halu := Bool.toNat_le (isAlu b)
  have hsets := Bool.toNat_le (setsPc b)
  omega

end Sys2Proof

namespace Sys2Proof.Machine

/-! ## The halt check and the faults of the fetch -/

/-- "MemoryFault(256)" of the halt check (spec/40_fetch_decode_dispatch.md R92). -/
theorem fetch_of_gt {s : State} (hpc : 255 < s.pc) : fetch s = .error (.memoryFault s.pc) := by
  rw [fetch, memRead_of_gt s hpc]
  rfl

/-- A Raw cell at `pc` is the halt signal (spec/40_fetch_decode_dispatch.md R92). -/
theorem fetch_of_raw {s : State} {n : Nat} (hpc : s.pc ≤ 255) (hcell : s.cellAt s.pc = .raw n) : fetch s = .ok none := by
  simp only [fetch, memRead_of_le s hpc, bind, Except.bind, hcell]

/-- A fault of the operand fetch is the fetch's, before the opcode is looked up (spec/40_fetch_decode_dispatch.md R98, decision D29; log 28). -/
theorem fetch_of_operands_error {s : State} {b : Byte} {e : Fault} (hpc : s.pc ≤ 255) (hcell : s.cellAt s.pc = .byte b)
    (h : fetchOperands (operandCount b) (s.pc + 1) s = .error e) : fetch s = .error e := by
  simp only [fetch, memRead_of_le s hpc, bind, Except.bind, hcell, h]

/-- Nothing but a Raw cell at `pc` makes the fetch answer the halt signal. -/
theorem fetch_eq_none_iff {s : State} : fetch s = .ok none ↔ s.pc ≤ 255 ∧ ∃ n, s.cellAt s.pc = .raw n := by
  refine ⟨fun h => ?_, fun ⟨hpc, n, hcell⟩ => fetch_of_raw hpc hcell⟩
  rcases Nat.lt_or_ge 255 s.pc with hpc | hpc
  · exact nomatch (fetch_of_gt hpc).symm.trans h
  · refine ⟨hpc, ?_⟩
    cases hcell : s.cellAt s.pc with
    | raw n => exact ⟨n, rfl⟩
    | byte b =>
      cases hoperands : fetchOperands (operandCount b) (s.pc + 1) s with
      | error e => exact nomatch (fetch_of_operands_error hpc hcell hoperands).symm.trans h
      | ok operands =>
        rw [fetch_byte hpc hcell hoperands] at h
        split at h <;> cases h

theorem fetchAndExecute_of_fetch_none {s : State} (h : fetch s = .ok none) : fetchAndExecute s = .next (s.setStatus .halted) := by
  simp [fetchAndExecute, h]

/-- A step whose poll leaves the machine running ends `Halted` exactly when the fetch met the halt signal: no instruction writes the status. -/
theorem fetchAndExecute_halted_iff {s t : State} (hs : s.status = .running) (h : fetchAndExecute s = .next t) :
    t.status = .halted ↔ fetch s = .ok none := by
  cases hfetch : fetch s with
  | error e => exact nomatch (fetchAndExecute_of_fetch_error hfetch).symm.trans h
  | ok found =>
    cases found with
    | none =>
      obtain rfl := Host.Outcome.next.inj ((fetchAndExecute_of_fetch_none hfetch).symm.trans h)
      simp
    | some i =>
      rw [fetchAndExecute_of_fetch hfetch] at h
      obtain ⟨hstatus, -⟩ := exec_rest h
      simp [hstatus, hs]

/-! ## The advance of `pc` -/

/-- An instruction outside the control-flow namespace advances `pc` past its own bytes (spec/40_fetch_decode_dispatch.md R96). -/
theorem exec_pc_of_sequential {i : Instr} {s t : State} (hi : i.inControl = false) (h : exec i s = .next t) :
    t.pc = s.pc + 1 + i.operandBytes.length := by
  cases i with
  | call | ret | int | iret | jmp | jeq | jne | jgt | jlt | jle | jge => cases hi
  | add | sub | mul | div | and | or | xor | shl | shr =>
    obtain ⟨_, _, _, _, rfl⟩ := aluBinary_next h
    rfl
  | inc | dec | not =>
    obtain ⟨_, _, rfl⟩ := aluUnary_next h
    rfl
  | mod =>
    obtain ⟨_, _, _, _, _, rfl⟩ := execMod_next h
    rfl
  | cmp =>
    obtain ⟨_, _, _, _, rfl⟩ := execCmp_next h
    rfl
  | nop | hlt =>
    cases h
    rfl
  | ldi =>
    obtain ⟨_, _, rfl⟩ := execLdi_next h
    rfl
  | ld =>
    obtain ⟨_, _, _, _, _, _, rfl⟩ := execLd_next h
    rfl
  | st =>
    obtain ⟨_, _, _, _, rfl⟩ := execSt_next h
    rfl
  | push =>
    obtain ⟨_, _, _, rfl⟩ := execPush_next h
    rfl
  | pop =>
    obtain ⟨_, _, _, _, rfl⟩ := execPop_next h
    rfl
  | prn =>
    obtain ⟨_, _, rfl⟩ := execPrn_next h
    rfl
  | pra =>
    obtain ⟨_, _, rfl⟩ := execPra_next h
    rfl

/-! ## The faults of the poll -/

/-- A fault of the poll is the step's (spec/40_fetch_decode_dispatch.md R98(2), decision D29; log 28). -/
theorem step_of_poll_error {s : State} {f : Fault} (hs : s.status = .running) (h : pollPhase s = .error f) : step s = .fault f := by
  simp [step, hs, h]

/-- The lowest line that is pending and enabled is the one serviced (spec/60_exceptions.md R186). -/
theorem serviceActive_of_lowest {s : State} {n : Nat} (hn : n < 8) (hmask : (s.reg .r5).getLsbD n = true) (hpending : (s.reg .r6).getLsbD n = true)
    (hlowest : ∀ m, m < n → ((s.reg .r5).getLsbD m && (s.reg .r6).getLsbD m) = false) : serviceActive s = service n s := by
  have hline : lowestLine (s.reg .r5 &&& s.reg .r6) = some n := by
    refine lowestLine_some hn ?_ fun m hm => ?_
    · rw [BitVec.getLsbD_and, hmask, hpending, Bool.and_self]
    · rw [BitVec.getLsbD_and, hlowest m hm]
  rw [serviceActive, hline]

/-- A poll that draws nothing goes straight to the active lines. -/
theorem pollPhase_of_quiet {s : State} (hie : s.ie = true) (hdraw : s.draw = Config.Draw.quiet) : pollPhase s = serviceActive s.consumeDraw := by
  rw [pollPhase_of_enabled hie, poll, hdraw]
  rfl

/-- The service faults on a vector slot that reads as Raw once the frame is pushed (spec/60_exceptions.md R187, R188). -/
theorem service_of_raw_slot {s : State} {n : Nat} (hn : n < 8) (hsp : 9 ≤ (s.reg .r7).toNat)
    (hslot : ∀ p, Framed n s p → ∃ v, p.cellAt (s.params.vectorBase.val + n) = .raw v) :
    service n s = .error (.tagFault (s.params.vectorBase.val + n)) := by
  obtain ⟨-, hroom⟩ := service_spec n hn s
  obtain ⟨p, hp, hservice⟩ := hroom hsp
  obtain ⟨v, hv⟩ := hslot p hp
  rw [hservice, hv]
  rfl

/-! ## Iterations -/

theorem iterations_succ_of_next {s t : State} (h : step s = .next t) (n : Nat) : iterations (n + 1) s = iterations n t := by
  rw [iterations, h]

theorem iterations_succ_of_fault {s : State} {f : Fault} (h : step s = .fault f) (n : Nat) : iterations (n + 1) s = .fault f := by
  rw [iterations, h]

/-- The first of the iterations that led to a state. -/
theorem iterations_succ_eq_next {n : Nat} {s t : State} (h : iterations (n + 1) s = .next t) :
    ∃ u, step s = .next u ∧ iterations n u = .next t := by
  rw [iterations] at h
  split at h
  · next u hu => exact ⟨u, hu, h⟩
  · cases h
  · cases h

theorem iterations_add_of_next {j : Nat} {s t : State} (h : iterations j s = .next t) (k : Nat) : iterations (j + k) s = iterations k t := by
  induction j generalizing s with
  | zero =>
    cases h
    rw [Nat.zero_add]
  | succ j ih =>
    obtain ⟨u, hu, hrest⟩ := iterations_succ_eq_next h
    rw [Nat.add_right_comm, iterations_succ_of_next hu, ih hrest]

/-- A fault ends the iterations: more of them answer it too. -/
theorem iterations_add_of_fault {j : Nat} {s : State} {f : Fault} (h : iterations j s = .fault f) (k : Nat) : iterations (j + k) s = .fault f := by
  induction j generalizing s with
  | zero => cases h
  | succ j ih =>
    rw [Nat.add_right_comm]
    cases hstep : step s with
    | next u =>
      rw [iterations_succ_of_next hstep] at h ⊢
      exact ih h
    | fault g =>
      rw [iterations_succ_of_fault hstep] at h ⊢
      exact h
    | refused r =>
      rw [iterations, hstep] at h
      cases h

/-- A state that steps to itself is where all later iterations stay. -/
theorem iterations_of_step_self {s : State} (h : step s = .next s) (n : Nat) : iterations n s = .next s := by
  induction n with
  | zero => rfl
  | succ n ih => rw [iterations_succ_of_next h, ih]

/-- Iterations answer a state, or one of them faults: no step is refused. -/
theorem iterations_next_or_fault (n : Nat) (s : State) :
    (∃ t, iterations n s = .next t) ∨ ∃ k t f, k < n ∧ iterations k s = .next t ∧ step t = .fault f := by
  induction n with
  | zero => exact .inl ⟨s, rfl⟩
  | succ n ih =>
    rcases ih with ⟨t, ht⟩ | ⟨k, t, f, hk, ht, hf⟩
    · obtain ⟨o, ho⟩ := Proofs.noStepIsRefused t
      cases o with
      | ok u =>
        refine .inl ⟨u, ?_⟩
        rw [iterations_add_of_next ht, iterations_succ_of_next ho]
        rfl
      | error f => exact .inr ⟨n, t, f, n.lt_succ_self, ht, ho⟩
    · exact .inr ⟨k, t, f, Nat.lt_succ_of_lt hk, ht, hf⟩

/-! ## The run status over a step -/

/-- "Once not `Running` the machine takes no further step" (spec/10_state.md R29). -/
theorem step_self_of_halted {s : State} (h : s.status = .halted) : step s = .next s := by
  rw [step, h]

theorem step_self_of_cancelled {s : State} (h : s.status = .cancelled) : step s = .next s := by
  rw [step, h]

theorem eq_of_step_of_not_running {s t : State} (hs : s.status ≠ .running) (h : step s = .next t) : t = s := by
  rcases step_cases h with ⟨-, ht⟩ | ⟨hrunning, -⟩
  · exact ht
  · exact absurd hrunning hs

/-- A poll cancels the run or leaves the status (spec/60_exceptions.md R185). -/
theorem pollPhase_status {s t : State} (h : pollPhase s = .ok t) : t.status = .cancelled ∨ t.status = s.status := by
  cases hie : s.ie with
  | false =>
    rw [pollPhase_of_disabled hie] at h
    cases h
    exact .inr rfl
  | true =>
    rw [pollPhase_of_enabled hie, poll_eq] at h
    split at h
    · cases h
      exact .inl rfl
    · obtain ⟨⟨-, -, -, -, -, hpolled, -⟩, -⟩ := s.polled_frame
      rcases serviceActive_ok h with rfl | ⟨n, hn, -, hservice⟩
      · exact .inr hpolled
      · obtain ⟨-, -, -, -, hstatus, -⟩ := service_rest hn hservice
        exact .inr (hstatus.trans hpolled)

/-- The status of a state is not a fault: a fault is a step's answer and exposes no state (spec/60_exceptions.md R176). -/
def State.NoFaultStatus (s : State) : Prop := ∀ f, s.status ≠ .fault f

theorem State.NoFaultStatus.of_running {s : State} (h : s.status = .running) : s.NoFaultStatus := fun f => by simp [h]

theorem step_noFaultStatus {s t : State} (hs : s.NoFaultStatus) (h : step s = .next t) : t.NoFaultStatus := by
  refine step_rel (fun s t => s.NoFaultStatus → t.NoFaultStatus) (fun _ => id) (fun h1 h2 hs => h2 (h1 hs)) (fun hp hs f => ?_)
    (fun s _ f => nofun) (fun _ hi hs f => ?_) h hs
  · rcases pollPhase_status hp with hstatus | hstatus
    · simp [hstatus]
    · exact hstatus ▸ hs f
  · obtain ⟨hstatus, -⟩ := exec_rest hi
    exact hstatus ▸ hs f

theorem iterations_noFaultStatus {n : Nat} {s t : State} (hs : s.NoFaultStatus) (h : iterations n s = .next t) : t.NoFaultStatus := by
  induction n generalizing s with
  | zero =>
    cases h
    exact hs
  | succ n ih =>
    obtain ⟨u, hu, hrest⟩ := iterations_succ_eq_next h
    exact ih (step_noFaultStatus hs hu) hrest

/-- A state whose status is no fault faults in a step only while it runs. -/
theorem running_of_step_fault {s : State} {f : Fault} (hs : s.NoFaultStatus) (h : step s = .fault f) : s.status = .running := by
  cases hstatus : s.status with
  | running => rfl
  | halted => exact nomatch (step_self_of_halted hstatus).symm.trans h
  | cancelled => exact nomatch (step_self_of_cancelled hstatus).symm.trans h
  | fault g => exact absurd hstatus (hs g)

/-! ## What a run answers from a state as it stands -/

theorem run_of_halted {s : State} (h : s.status = .halted) (n : Nat) : run n s = .halted s.acc s.prnOut := by
  unfold run
  simp only [h]

theorem run_of_cancelled {s : State} (h : s.status = .cancelled) (n : Nat) : run n s = .cancelled s.acc s.prnOut := by
  unfold run
  simp only [h]

theorem run_of_faultStatus {s : State} {f : Fault} (h : s.status = .fault f) (n : Nat) : run n s = .fault f s.prnOut := by
  unfold run
  simp only [h]

theorem run_zero_of_running {s : State} (h : s.status = .running) : run 0 s = .outOfFuel s := by
  simp [run, h]

/-- Fuel plays no part once the run has ended (spec/40_fetch_decode_dispatch.md R100). -/
theorem run_of_not_running {s : State} (h : s.status ≠ .running) (n m : Nat) : run n s = run m s := by
  cases hstatus : s.status with
  | running => exact absurd hstatus h
  | halted => rw [run_of_halted hstatus, run_of_halted hstatus]
  | cancelled => rw [run_of_cancelled hstatus, run_of_cancelled hstatus]
  | fault f => rw [run_of_faultStatus hstatus, run_of_faultStatus hstatus]

theorem run_zero_eq_halted_iff {s : State} {acc : List Byte} {emitted : List (List Char)} :
    run 0 s = .halted acc emitted ↔ s.status = .halted ∧ s.acc = acc ∧ s.prnOut = emitted := by
  cases h : s.status <;> simp [run, h]

theorem run_zero_eq_cancelled_iff {s : State} {acc : List Byte} {emitted : List (List Char)} :
    run 0 s = .cancelled acc emitted ↔ s.status = .cancelled ∧ s.acc = acc ∧ s.prnOut = emitted := by
  cases h : s.status <;> simp [run, h]

theorem run_zero_eq_outOfFuel_iff {s t : State} : run 0 s = .outOfFuel t ↔ s = t ∧ s.status = .running := by
  cases h : s.status <;> simp [run, h]

theorem run_zero_ne_fault {s : State} (hs : s.NoFaultStatus) (f : Fault) (emitted : List (List Char)) : run 0 s ≠ .fault f emitted := by
  cases h : s.status with
  | fault g => exact absurd h (hs g)
  | running | halted | cancelled => simp [run, h]

/-! ## The run and its iterations -/

theorem run_succ_of_next {s t : State} (hs : s.status = .running) (h : step s = .next t) (n : Nat) : run (n + 1) s = run n t := by
  rw [run]
  simp only [hs, h]

theorem run_succ_of_fault {s : State} {f : Fault} (hs : s.status = .running) (h : step s = .fault f) (n : Nat) :
    run (n + 1) s = .fault f s.prnOut := by
  rw [run]
  simp only [hs, h]

/-- A run goes on from where its first iterations led, with the fuel that is left. -/
theorem run_add_of_next {j : Nat} {s t : State} (h : iterations j s = .next t) (k : Nat) : run (j + k) s = run k t := by
  induction j generalizing s with
  | zero =>
    cases h
    rw [Nat.zero_add]
  | succ j ih =>
    obtain ⟨u, hu, hrest⟩ := iterations_succ_eq_next h
    rw [Nat.add_right_comm, ← ih hrest]
    by_cases hs : s.status = .running
    · exact run_succ_of_next hs hu _
    · obtain rfl := eq_of_step_of_not_running hs hu
      exact run_of_not_running hs _ _

/-- An iteration within the fuel that faults is the run's answer, with the records emitted before it (spec/10_state.md R26). -/
theorem run_of_iteration_fault {k n : Nat} {s t : State} {f : Fault} (hs : s.NoFaultStatus) (hk : k < n) (h : iterations k s = .next t)
    (hf : step t = .fault f) : run n s = .fault f t.prnOut := by
  obtain ⟨m, rfl⟩ := Nat.exists_eq_add_of_lt hk
  rw [Nat.add_assoc, run_add_of_next h]
  exact run_succ_of_fault (running_of_step_fault (iterations_noFaultStatus hs h) hf) hf m

/-- A run has one of two ends: its fuel is used up and the state reached decides, or an iteration within the fuel faults. -/
theorem run_cases (n : Nat) {s : State} (hs : s.NoFaultStatus) :
    (∃ t, t.NoFaultStatus ∧ iterations n s = .next t ∧ run n s = run 0 t) ∨
    ∃ k t f, k < n ∧ iterations k s = .next t ∧ step t = .fault f ∧ run n s = .fault f t.prnOut := by
  rcases iterations_next_or_fault n s with ⟨t, ht⟩ | ⟨k, t, f, hk, ht, hf⟩
  · exact .inl ⟨t, iterations_noFaultStatus hs ht, ht, run_add_of_next ht 0⟩
  · exact .inr ⟨k, t, f, hk, ht, hf, run_of_iteration_fault hs hk ht hf⟩

/-- An answer that is no fault, and only given by states that stay as they are, is the run's exactly when iterations within the fuel reach such a
state. -/
theorem run_eq_iff_of_final {n : Nat} {s : State} {r : RunResult} (hs : s.NoFaultStatus) (hr : ∀ f emitted, r ≠ .fault f emitted)
    (hfinal : ∀ t, run 0 t = r → step t = .next t) :
    run n s = r ↔ ∃ k t, k ≤ n ∧ iterations k s = .next t ∧ run 0 t = r := by
  constructor
  · rintro rfl
    rcases run_cases n hs with ⟨t, -, ht, hrun⟩ | ⟨k, t, f, -, -, -, hrun⟩
    · exact ⟨n, t, Nat.le_refl n, ht, hrun.symm⟩
    · exact absurd hrun (hr f t.prnOut)
  · rintro ⟨k, t, hk, ht, hrun⟩
    obtain ⟨m, rfl⟩ := Nat.exists_eq_add_of_le hk
    have hstay : iterations (k + m) s = .next t := by rw [iterations_add_of_next ht, iterations_of_step_self (hfinal t hrun)]
    exact (run_add_of_next hstay 0).trans hrun

theorem run_eq_halted_iff {n : Nat} {s : State} (hs : s.NoFaultStatus) (acc : List Byte) (emitted : List (List Char)) :
    run n s = .halted acc emitted ↔
      ∃ k t, k ≤ n ∧ iterations k s = .next t ∧ t.status = .halted ∧ t.acc = acc ∧ t.prnOut = emitted := by
  rw [run_eq_iff_of_final (r := .halted acc emitted) hs nofun fun t ht => step_self_of_halted (run_zero_eq_halted_iff.mp ht).1]
  simp only [run_zero_eq_halted_iff]

theorem run_eq_cancelled_iff {n : Nat} {s : State} (hs : s.NoFaultStatus) (acc : List Byte) (emitted : List (List Char)) :
    run n s = .cancelled acc emitted ↔
      ∃ k t, k ≤ n ∧ iterations k s = .next t ∧ t.status = .cancelled ∧ t.acc = acc ∧ t.prnOut = emitted := by
  rw [run_eq_iff_of_final (r := .cancelled acc emitted) hs nofun fun t ht => step_self_of_cancelled (run_zero_eq_cancelled_iff.mp ht).1]
  simp only [run_zero_eq_cancelled_iff]

theorem run_eq_fault_iff {n : Nat} {s : State} (hs : s.NoFaultStatus) (f : Fault) (emitted : List (List Char)) :
    run n s = .fault f emitted ↔ ∃ k t, k < n ∧ iterations k s = .next t ∧ step t = .fault f ∧ t.prnOut = emitted := by
  constructor
  · intro h
    rcases run_cases n hs with ⟨t, htstatus, -, hrun⟩ | ⟨k, t, g, hk, ht, hg, hrun⟩
    · exact absurd (hrun.symm.trans h) (run_zero_ne_fault htstatus f emitted)
    · obtain ⟨rfl, rfl⟩ := RunResult.fault.inj (hrun.symm.trans h)
      exact ⟨k, t, hk, ht, hg, rfl⟩
  · rintro ⟨k, t, hk, ht, hf, rfl⟩
    exact run_of_iteration_fault hs hk ht hf

theorem run_eq_outOfFuel_iff {n : Nat} {s : State} (hs : s.NoFaultStatus) (t : State) :
    run n s = .outOfFuel t ↔ iterations n s = .next t ∧ t.status = .running := by
  constructor
  · intro h
    rcases run_cases n hs with ⟨u, -, hu, hrun⟩ | ⟨k, u, f, -, -, -, hrun⟩
    · obtain ⟨rfl, hstatus⟩ := run_zero_eq_outOfFuel_iff.mp (hrun.symm.trans h)
      exact ⟨hu, hstatus⟩
    · exact nomatch hrun.symm.trans h
  · rintro ⟨ht, hstatus⟩
    exact (run_add_of_next ht 0).trans (run_zero_of_running hstatus)

/-- Iterations that answer a state have met no fault on the way. -/
theorem safeFor_of_iterations_next {n : Nat} {s t : State} (h : iterations n s = .next t) : SafeFor n s := by
  intro k hk f hf
  obtain ⟨m, rfl⟩ := Nat.exists_eq_add_of_le hk
  exact nomatch (iterations_add_of_fault hf m).symm.trans h

theorem safeFor_iff_run_ne_fault {n : Nat} {s : State} (hs : s.NoFaultStatus) : SafeFor n s ↔ ∀ f emitted, run n s ≠ .fault f emitted := by
  rcases run_cases n hs with ⟨t, htstatus, ht, hrun⟩ | ⟨k, t, f, hk, ht, hf, hrun⟩
  · exact ⟨fun _ => hrun ▸ run_zero_ne_fault htstatus, fun _ => safeFor_of_iterations_next ht⟩
  · refine ⟨fun hsafe => absurd ?_ (hsafe (k + 1) hk f), fun hne => absurd hrun (hne f t.prnOut)⟩
    rw [iterations_add_of_next ht, iterations_succ_of_fault hf]

/-- A machine still running after `MAX_CYCLES` iterations is stopped (spec/40_fetch_decode_dispatch.md R100, decision D23; log 25). -/
theorem runBounded_of_running {m : Config.MaxCycles} {n : Nat} {s t : State} (hm : m.val ≤ n) (h : iterations m.val s = .next t)
    (ht : t.status = .running) : runBounded (some m) n s = .cancelled t.acc t.prnOut := by
  have hrun : run m.val s = .outOfFuel t := (run_add_of_next h 0).trans (run_zero_of_running ht)
  simp only [runBounded, if_neg (Nat.not_lt.mpr hm), hrun]

end Sys2Proof.Machine

namespace Sys2Proof.Proofs

open Sys2Proof.Machine

/-- Settles O58: a run ends in the state its iterations reach within the fuel, or with the first of them that faults. -/
theorem runAnswersAsItsIterationsEnd : Obligations.RunAnswersAsItsIterationsEnd := by
  intro s fuel hrunning
  have hs : s.NoFaultStatus := .of_running hrunning
  exact ⟨run_eq_halted_iff hs, run_eq_cancelled_iff hs, run_eq_fault_iff hs, run_eq_outOfFuel_iff hs, safeFor_iff_run_ne_fault hs, rfl,
    fun _ _ => runBounded_of_running⟩

/-- Settles O6: the step after the poll is the halt check, and what the fetch answers decides it. -/
theorem rawCellAtPcIsTheOnlyHalt : Obligations.RawCellAtPcIsTheOnlyHalt := by
  intro s s1 hs hpoll hs1
  have hstep : step s = fetchAndExecute s1 := step_of_poll hs hpoll hs1
  refine ⟨fun hpc => ?_, fun n hpc hcell => ?_, fun b hpc hcell operands i rest hoperands hdecode => ?_, fun t ht => ?_⟩
  · rw [hstep, fetchAndExecute_of_fetch_error (fetch_of_gt hpc)]
  · have hhalt : step s = .next (s1.setStatus .halted) := hstep.trans (fetchAndExecute_of_fetch_none (fetch_of_raw hpc hcell))
    exact ⟨hhalt, fun fuel => (run_succ_of_next hs hhalt fuel).trans (run_of_halted rfl fuel)⟩
  · rw [hstep]
    exact fetchAndExecute_of_fetch (by rw [fetch_byte hpc hcell hoperands, hdecode])
  · rw [fetchAndExecute_halted_iff hs1 (hstep.symm.trans ht), fetch_eq_none_iff]

/-- Settles O7: the operand fetch answers the Byte cells or faults at the first misfit, and its fault is the step's. -/
theorem operandFetchReadsBytesInOrder : Obligations.OperandFetchReadsBytesInOrder := by
  refine ⟨fun s a count => ⟨fetchOperands_eq_ok s count a, fetchOperands_error s count a⟩, ?_⟩
  intro s s1 b before hs hpoll hs1 hpc hcell hlen hbytes
  obtain ⟨habove, hraw⟩ := fetchOperands_error s1 _ _ before hlen hbytes
  have hfault : ∀ e, fetchOperands (operandCount b) (s1.pc + 1) s1 = .error e → step s = .fault e := fun e he =>
    (step_of_poll hs hpoll hs1).trans (fetchAndExecute_of_fetch_error (fetch_of_operands_error hpc hcell he))
  exact ⟨fun hgt => hfault _ (habove hgt), fun n hle hn => hfault _ (hraw n hle hn)⟩

/-- Settles O50: `sets_pc = 0` says that the instruction is outside the control-flow namespace, and there `pc` advances past its bytes. -/
theorem sequentialInstructionsAdvancePc : Obligations.SequentialInstructionsAdvancePc := by
  intro m i s t hsets h
  rw [(i.opcode_fields m).1]
  exact exec_pc_of_sequential (i.setsPc_opcode m ▸ hsets) h

/-- Settles O59: at a quiet draw the poll is the service of the lowest active line, and the tag of its vector slot is read after the pushes. -/
theorem pollFaultEndsTheIteration : Obligations.PollFaultEndsTheIteration := by
  intro s hs
  refine ⟨fun f => step_of_poll_error hs, fun n hn hie hdraw hmask hpending hlowest => ?_⟩
  have hpoll : pollPhase s = service n s.consumeDraw :=
    (pollPhase_of_quiet hie hdraw).trans (serviceActive_of_lowest (s := s.consumeDraw) hn hmask hpending hlowest)
  refine ⟨fun hsp => step_of_poll_error hs (hpoll.trans ((service_spec n hn s.consumeDraw).1 hsp)), fun hsp => ?_⟩
  have htag : (∀ p, Framed n s.consumeDraw p → ∃ v, p.cellAt (s.params.vectorBase.val + n) = .raw v) →
      step s = .fault (.tagFault (s.params.vectorBase.val + n)) := fun hslot =>
    step_of_poll_error hs (hpoll.trans (service_of_raw_slot hn hsp hslot))
  refine ⟨fun v houtside hcell => htag fun p hp => ⟨v, (hp.cells _ houtside).trans hcell⟩, fun k hk hslot => htag fun p hp => ?_⟩
  rw [hslot]
  rcases hk with rfl | rfl
  · exact ⟨_, hp.savedPc⟩
  · exact ⟨_, hp.savedFlags⟩

/-- Settles O2: the fields are a division, two bits and a remainder of the byte. -/
theorem opcodeFieldsPartitionTheByte : Obligations.OpcodeFieldsPartitionTheByte :=
  fun b => ⟨operandCount_eq_shiftRight b, rfl, rfl, opCode_eq_and b, toNat_eq_fields b⟩

end Sys2Proof.Proofs

/-! # Proofs: the ALU instructions, and words written out -/

namespace Sys2Proof

/-! ## Truncation to 8 bits -/

@[simp] theorem trunc8_toNat (n : Nat) : (trunc8 n).toNat = n % 256 := BitVec.toNat_ofNat n 8

theorem trunc8_toNat_of_lt {n : Nat} (h : n < 256) : (trunc8 n).toNat = n := by
  rw [trunc8_toNat, Nat.mod_eq_of_lt h]

/-- The default `OPMAP` is an admitted one (decision D1, log 1). -/
theorem defaultOpMap_valid : OpMap.valid Machine.defaultOpMap := by decide

end Sys2Proof

namespace Sys2Proof.Machine

/-! ## The results as numbers -/

theorem addResult_toNat (x y : Byte) : (addResult x y).toNat = (x.toNat + y.toNat) % 256 := trunc8_toNat _

theorem mulResult_toNat (x y : Byte) : (mulResult x y).toNat = x.toNat * y.toNat % 256 := trunc8_toNat _

/-- The difference is computed on integers and can be negative; adding 256 first keeps it a natural number. -/
theorem subResult_toNat (legacyProduct : Bool) (x y : Byte) :
    (subResult legacyProduct x y).toNat = if legacyProduct then x.toNat * y.toNat % 256 else (x.toNat + (256 - y.toNat)) % 256 := by
  have hy := Byte.toNat_le y
  cases legacyProduct with
  | true => exact trunc8_toNat _
  | false =>
    simp only [subResult, Bool.false_eq_true, if_false, BitVec.toNat_ofInt]
    omega

/-- A count of 8 or more shifts every bit out to the right (decision D24, log 15). -/
theorem shrResult_toNat (x y : Byte) : (shrResult x y).toNat = if 8 ≤ y.toNat then 0 else x.toNat / 2 ^ y.toNat := by
  have hquot : (shrResult x y).toNat = x.toNat / 2 ^ y.toNat := trunc8_toNat_of_lt (Nat.lt_of_le_of_lt (Nat.div_le_self _ _) x.isLt)
  rw [hquot]
  split
  · next hcount => exact Nat.div_eq_of_lt (Nat.lt_of_lt_of_le x.isLt (Nat.pow_le_pow_right Nat.two_pos hcount))
  · rfl

/-- A count of 8 or more makes the product a multiple of 256 (decision D24, log 15). -/
theorem shlResult_toNat (x y : Byte) : (shlResult x y).toNat = if 8 ≤ y.toNat then 0 else x.toNat * 2 ^ y.toNat % 256 := by
  rw [shlResult, trunc8_toNat]
  split
  · next hcount => exact Nat.mod_eq_zero_of_dvd (Nat.dvd_mul_left_of_dvd (Nat.pow_dvd_pow 2 hcount) x.toNat)
  · rfl

theorem modResult_toNat (x y : Byte) : (modResult x y).toNat = x.toNat % y.toNat :=
  trunc8_toNat_of_lt (Nat.lt_of_le_of_lt (Nat.mod_le _ _) x.isLt)

theorem notResult_toNat (x : Byte) : (notResult x).toNat = 255 - x.toNat :=
  trunc8_toNat_of_lt (Nat.lt_succ_of_le (Nat.sub_le _ _))

theorem incResult_toNat (x : Byte) : (incResult x).toNat = (x.toNat + 1) % 256 := trunc8_toNat _

/-- `0 - 1` is computed on integers and wraps to 255. -/
theorem decResult_toNat (x : Byte) : (decResult x).toNat = (x.toNat + 255) % 256 := by
  rw [decResult, BitVec.toNat_ofInt]
  omega

/-! ## The flags of a comparison -/

theorem compareFlags_l (x y : Byte) : (compareFlags x y).l = decide (x.toNat < y.toNat) := by
  unfold compareFlags
  split
  · next hlt => simp [hlt]
  · next hlt => split <;> simp [hlt]

theorem compareFlags_g (x y : Byte) : (compareFlags x y).g = decide (y.toNat < x.toNat) := by
  unfold compareFlags
  split
  · next hlt => simp [Nat.le_of_lt hlt]
  · split
    · next hgt => simp [hgt]
    · next hgt => simp [hgt]

theorem compareFlags_e (x y : Byte) : (compareFlags x y).e = decide (x.toNat = y.toNat) := by
  unfold compareFlags
  split
  · next hlt => simp [Nat.ne_of_lt hlt]
  · next hlt =>
    split
    · next hgt => simp [Nat.ne_of_gt hgt]
    · next hgt => simp [Nat.le_antisymm (Nat.not_lt.mp hgt) (Nat.not_lt.mp hlt)]

/-! ## The ALU shapes on operands that name registers -/

/-- Writing a register and advancing changes that register and `pc` alone. -/
theorem State.setReg_advance_frame (s : State) (r : Reg) (v : Byte) (len : Nat) : Frame [r] [] s ((s.setReg r v).advance len) := by
  refine ⟨fun q hq => ?_, fun _ _ => rfl, rfl, ⟨rfl, rfl⟩, rfl, rfl, rfl, rfl, rfl⟩
  rw [State.advance_reg, State.setReg_reg, if_neg (List.ne_of_not_mem_cons hq)]

theorem State.setReg_advance_reg_self (s : State) (r : Reg) (v : Byte) (len : Nat) : ((s.setReg r v).advance len).reg r = v := by
  rw [State.advance_reg, State.setReg_reg, if_pos rfl]

/-- The two-operand shape completes, writes its result into register A and has A's frame (spec/41_alu.md R110). -/
theorem aluBinary_spec (f : Byte → Byte → Byte) {a b : Byte} {ra rb : Reg} (s : State) (ha : reg a = .ok ra) (hb : reg b = .ok rb) :
    ∃ t, aluBinary f a b s = .next t ∧ t.reg ra = f (s.reg ra) (s.reg rb) ∧ t.pc = s.pc + 3 ∧ Frame [ra] [] s t :=
  ⟨_, withRegs_ok ha hb _, s.setReg_advance_reg_self .., rfl, s.setReg_advance_frame ..⟩

/-- The one-operand shape completes, writes its result into register A and has A's frame (spec/41_alu.md R110). -/
theorem aluUnary_spec (f : Byte → Byte) {a : Byte} {ra : Reg} (s : State) (ha : reg a = .ok ra) :
    ∃ t, aluUnary f a s = .next t ∧ t.reg ra = f (s.reg ra) ∧ t.pc = s.pc + 2 ∧ Frame [ra] [] s t :=
  ⟨_, withReg_ok ha _, s.setReg_advance_reg_self .., rfl, s.setReg_advance_frame ..⟩

/-- An instruction of the two-operand shape keeps the rule of any number its result is. -/
theorem aluBinaryRule_of_toNat {mk : Byte → Byte → Instr} {f : State → Byte → Byte → Byte} {result : State → Nat → Nat → Nat}
    (hexec : ∀ a b s, exec (mk a b) s = aluBinary (f s) a b s) (hresult : ∀ s x y, (f s x y).toNat = result s x.toNat y.toNat) :
    AluBinaryRule mk result := by
  intro s a b ra rb ha hb
  obtain ⟨t, ht, hreg, hpc, hframe⟩ := aluBinary_spec (f s) s ha hb
  exact ⟨t, (hexec a b s).trans ht, by rw [hreg, hresult], hpc, hframe⟩

/-- An instruction of the one-operand shape keeps the rule of any number its result is. -/
theorem aluUnaryRule_of_toNat {mk : Byte → Instr} {f : Byte → Byte} {result : Nat → Nat}
    (hexec : ∀ a s, exec (mk a) s = aluUnary f a s) (hresult : ∀ x, (f x).toNat = result x.toNat) : AluUnaryRule mk result := by
  intro s a ra ha
  obtain ⟨t, ht, hreg, hpc, hframe⟩ := aluUnary_spec f s ha
  exact ⟨t, (hexec a s).trans ht, by rw [hreg, hresult], hpc, hframe⟩

/-- An instruction of the two-operand shape whose result is computed bit by bit. -/
theorem aluBinary_getLsbD {f : Byte → Byte → Byte} {g : Bool → Bool → Bool} (hbits : ∀ x y k, (f x y).getLsbD k = g (x.getLsbD k) (y.getLsbD k))
    {a b : Byte} {ra rb : Reg} (s : State) (ha : reg a = .ok ra) (hb : reg b = .ok rb) :
    ∃ t, aluBinary f a b s = .next t ∧ (∀ k, (t.reg ra).getLsbD k = g ((s.reg ra).getLsbD k) ((s.reg rb).getLsbD k)) ∧
      t.pc = s.pc + 3 ∧ Frame [ra] [] s t := by
  obtain ⟨t, ht, hreg, hpc, hframe⟩ := aluBinary_spec f s ha hb
  exact ⟨t, ht, fun k => by rw [hreg, hbits], hpc, hframe⟩

/-- Everything `MOD` can do on operands that name registers (spec/41_alu.md R115). -/
theorem execMod_eq {a b : Byte} {ra rb : Reg} (s : State) (ha : reg a = .ok ra) (hb : reg b = .ok rb) :
    execMod a b s = if s.reg rb = 0#8 then .fault (.arithmeticFault s.pc)
      else .next ((s.setReg ra (modResult (s.reg ra) (s.reg rb))).advance 3) := by
  rw [execMod, withRegs_ok ha hb]
  split <;> rfl

/-- `CMP` completes on operands that name registers (spec/41_alu.md R124). -/
theorem execCmp_eq {a b : Byte} {ra rb : Reg} (s : State) (ha : reg a = .ok ra) (hb : reg b = .ok rb) :
    execCmp a b s = .next ((s.setFlags (compareFlags (s.reg ra) (s.reg rb))).advance 3) :=
  withRegs_ok ha hb _

end Sys2Proof.Machine

namespace Sys2Proof.Proofs

open Sys2Proof.Machine

/-- Settles O16: the result is the machine's parameter's choice of difference or product. -/
theorem subIsDifferenceOrLegacyProduct : Obligations.SubIsDifferenceOrLegacyProduct :=
  aluBinaryRule_of_toNat (fun _ _ _ => rfl) (fun s => subResult_toNat s.params.subLegacyProduct)

/-- Settles O18: both instructions have the one result. -/
theorem divAndShrShiftRight : Obligations.DivAndShrShiftRight :=
  ⟨aluBinaryRule_of_toNat (fun _ _ _ => rfl) (fun _ => shrResult_toNat), aluBinaryRule_of_toNat (fun _ _ _ => rfl) (fun _ => shrResult_toNat)⟩

/-- Settles O19: a count of 8 or more leaves a multiple of 256. -/
theorem shlShiftsLeft : Obligations.ShlShiftsLeft :=
  aluBinaryRule_of_toNat (fun _ _ _ => rfl) (fun _ => shlResult_toNat)

/-- Settles O20: the divisor decides between the remainder and the fault. -/
theorem modIsUnsignedRemainder : Obligations.ModIsUnsignedRemainder := by
  intro s a b ra rb ha hb
  refine ⟨fun hdivisor => ?_, fun hzero => (execMod_eq s ha hb).trans (if_pos hzero)⟩
  refine ⟨_, (execMod_eq s ha hb).trans (if_neg hdivisor), ?_, rfl, s.setReg_advance_frame ..⟩
  rw [State.setReg_advance_reg_self, modResult_toNat]

/-- Settles O21: the three results are the bit vectors' own operations. -/
theorem bitwiseOperationsBitByBit : Obligations.BitwiseOperationsBitByBit := by
  intro s a b ra rb ha hb
  refine ⟨?_, ?_, ?_⟩
  · exact aluBinary_getLsbD (f := andResult) (g := and) (fun _ _ _ => BitVec.getLsbD_and) s ha hb
  · exact aluBinary_getLsbD (f := orResult) (g := or) (fun _ _ _ => BitVec.getLsbD_or) s ha hb
  · exact aluBinary_getLsbD (f := xorResult) (g := bne) (fun _ _ _ => BitVec.getLsbD_xor) s ha hb

/-- Settles O23: the sum and the integer difference, truncated. -/
theorem incAndDecWrap : Obligations.IncAndDecWrap :=
  ⟨aluUnaryRule_of_toNat (fun _ _ => rfl) incResult_toNat, aluUnaryRule_of_toNat (fun _ _ => rfl) decResult_toNat⟩

/-- Settles O24: `CMP` writes the comparison's flags and advances. -/
theorem cmpSetsExactlyOneFlag : Obligations.CmpSetsExactlyOneFlag := by
  intro s a b ra rb ha hb
  refine ⟨_, execCmp_eq s ha hb, compareFlags_l _ _, compareFlags_g _ _, compareFlags_e _ _, compareFlags_exclusive _ _, rfl, ?_⟩
  exact ⟨fun _ _ => rfl, fun _ _ => rfl, ⟨rfl, rfl⟩, rfl, rfl, rfl, rfl, rfl⟩

/-- Settles O15: the sum, truncated. -/
theorem addWrapsModulo256 : Obligations.AddWrapsModulo256 :=
  aluBinaryRule_of_toNat (fun _ _ _ => rfl) (fun _ => addResult_toNat)

/-- Settles O17: the product, truncated. -/
theorem mulKeepsLowByte : Obligations.MulKeepsLowByte :=
  aluBinaryRule_of_toNat (fun _ _ _ => rfl) (fun _ => mulResult_toNat)

/-- Settles O22: the complement never needs the truncation. -/
theorem notIsComplement : Obligations.NotIsComplement :=
  aluUnaryRule_of_toNat (fun _ _ => rfl) notResult_toNat

/-- Settles O4: the words are the instructions' encodings, and the decoder reads those back. -/
theorem writtenOutWordsDecode : Obligations.WrittenOutWordsDecode :=
  have hread (i : Instr) : decode defaultOpMap (encode defaultOpMap i ++ []) = .ok (i, []) := decode_encode_append defaultOpMap_valid i []
  ⟨hread (.add 3 5), hread (.not 4), hread (.call 1), hread .iret, hread (.ldi 7 255), hread (.st 2 0)⟩

end Sys2Proof.Proofs

/-! # Proofs: the control-flow instructions -/

namespace Sys2Proof.Machine

/-! ## Writing `pc` -/

theorem Frame.refl (s : State) : Frame [] [] s s := ⟨fun _ _ => rfl, fun _ _ => rfl, rfl, ⟨rfl, rfl⟩, rfl, rfl, rfl, rfl, rfl⟩

/-- A frame does not speak of `pc`. -/
theorem Frame.setPc {rs : List Reg} {addrs : List Nat} {s t : State} (h : Frame rs addrs s t) (n : Nat) : Frame rs addrs s (t.setPc n) := h

/-- An instruction of the jump's shape keeps the rule of the condition it tests. -/
theorem jumpRule_of_jumpIf {mk : Byte → Instr} {taken : Flags → Bool} (hexec : ∀ a s, exec (mk a) s = jumpIf (taken s.fl) a s) :
    JumpRule mk taken := by
  intro s a ra ha
  refine ⟨s.setPc (if taken s.fl then (s.reg ra).toNat else s.pc + 2), ?_, rfl, (Frame.refl s).setPc _⟩
  rw [hexec, jumpIf, withReg_ok ha, finish_ok]
  cases taken s.fl <;> rfl

/-! ## `RET` -/

theorem execRet_of_raw {s : State} {n : Nat} (hsp : s.reg .r7 ≠ 255#8) (hcell : s.cellAt (s.reg .r7).toNat = .raw n) :
    execRet s = .next (s.popped.setPc n) := by
  rw [execRet_eq, if_neg hsp, hcell]

theorem execRet_of_byte {s : State} {b : Byte} (hsp : s.reg .r7 ≠ 255#8) (hcell : s.cellAt (s.reg .r7).toNat = .byte b) :
    execRet s = .fault (.tagFault (s.reg .r7).toNat) := by
  rw [execRet_eq, if_neg hsp, hcell]

/-! ## `INT` -/

theorem State.setReg_reg_self (s : State) (r : Reg) : s.setReg r (s.reg r) = s := by
  cases r <;> rfl

/-- "`1 << n` truncated to 8 bits is 0" (spec/42_control_flow.md R140). -/
theorem lineBit_of_gt {n : Nat} (h : 7 < n) : lineBit n = 0#8 := by
  refine BitVec.eq_of_getLsbD_eq fun k hk => ?_
  have hne : k ≠ n := by omega
  rw [lineBit_getLsbD hk, decide_eq_false hne, BitVec.getLsbD_zero]

theorem raiseLine_of_gt {n : Nat} (h : 7 < n) (s : State) : raiseLine n s = s := by
  rw [raiseLine, lineBit_of_gt h, BitVec.or_zero, State.setReg_reg_self]

/-- `INT` completes on an operand that names a register; a number above 7 is the line whose bit is truncated away (decision D10, log 8). -/
theorem execInt_eq {a : Byte} {ra : Reg} (s : State) (h : reg a = .ok ra) :
    execInt a s = .next ((raiseLine (s.reg ra).toNat s).advance 2) := by
  rw [execInt, withReg_ok h, finish_ok]
  split
  · rfl
  · next hgt => rw [raiseLine_of_gt (Nat.not_le.mp hgt)]

/-! ## The flag word -/

theorem flagWord_default (f : Flags) : flagWord defaultFlagBits f = 4 * f.l.toNat + 2 * f.g.toNat + f.e.toNat := by
  simp [flagWord, defaultFlagBits]

theorem exists_flagsOfWord_of_valid {bits : Config.FlagBits} {w : Nat} (h : ValidFlagWord bits w) : ∃ f, flagsOfWord bits w = some f :=
  Option.ne_none_iff_exists'.mp fun hnone => flagsOfWord_none.mp hnone h

/-! ## The slots of `IRET`'s frame -/

theorem iretSlotFits_reg_iff {s : State} {sp k : Nat} (hk : k < 7) : IretSlotFits s sp k ↔ ∃ b, s.cellAt (sp + k) = .byte b := by
  have h7 : k ≠ 7 := Nat.ne_of_lt hk
  have h8 : k ≠ 8 := by omega
  simp [IretSlotFits, hk, h7, h8]

theorem iretSlotFits_flags_iff {s : State} {sp : Nat} :
    IretSlotFits s sp 7 ↔ ∃ w, ValidFlagWord s.params.flagBits w ∧ s.cellAt (sp + 7) = .raw w := by
  simp [IretSlotFits]

theorem iretSlotFits_pc_iff {s : State} {sp : Nat} : IretSlotFits s sp 8 ↔ ∃ n, s.cellAt (sp + 8) = .raw n := by
  simp [IretSlotFits]

/-! ## How `IRET` faults -/

theorem popRaw_of_raw {s : State} {n : Nat} (hsp : (s.reg .r7).toNat < 255) (hcell : s.cellAt (s.reg .r7).toNat = .raw n) :
    popRaw s = .ok (n, s.popped) := by
  rw [popRaw_eq, if_neg (Byte.ne_max_of_toNat (Nat.ne_of_lt hsp)), hcell]

theorem popRaw_of_byte {s : State} {b : Byte} (hsp : (s.reg .r7).toNat < 255) (hcell : s.cellAt (s.reg .r7).toNat = .byte b) :
    popRaw s = .error (.tagFault (s.reg .r7).toNat) := by
  rw [popRaw_eq, if_neg (Byte.ne_max_of_toNat (Nat.ne_of_lt hsp)), hcell]

theorem popRaw_of_max {s : State} (hsp : (s.reg .r7).toNat = 255) : popRaw s = .error (.stackFault 256) := by
  rw [popRaw_eq, if_pos (BitVec.eq_of_toNat_eq hsp)]

section
variable {s u : State} {w : Nat} {f : Flags} {e : Fault}

theorem interruptReturn_of_regs_error (h : popRegs savedRegs.reverse s = .error e) : interruptReturn s = .error e := by
  rw [interruptReturn, h]
  rfl

theorem interruptReturn_of_flags_error (hu : popRegs savedRegs.reverse s = .ok u) (h : popRaw u = .error e) : interruptReturn s = .error e := by
  simp only [interruptReturn, hu, h, bind, Except.bind]

theorem interruptReturn_of_flags_invalid {u' : State} (hu : popRegs savedRegs.reverse s = .ok u) (hw : popRaw u = .ok (w, u'))
    (hf : flagsOfWord s.params.flagBits w = none) : interruptReturn s = .error (.tagFault (u.reg .r7).toNat) := by
  simp only [interruptReturn, hu, hw, hf, bind, Except.bind]

theorem interruptReturn_of_pc_error {u' : State} (hu : popRegs savedRegs.reverse s = .ok u) (hw : popRaw u = .ok (w, u'))
    (hf : flagsOfWord s.params.flagBits w = some f) (h : popRaw u' = .error e) : interruptReturn s = .error e := by
  simp only [interruptReturn, hu, hw, hf, h, bind, Except.bind]

end

/-- The `k`-th slot of the frame decides `IRET`'s fault: the bound of the stack pointer first, then what the cell holds (spec/42_control_flow.md R141). -/
def FaultsAtSlot (s : State) (k : Nat) : Prop :=
  ((s.reg .r7).toNat + k = 255 → interruptReturn s = .error (.stackFault 256)) ∧
  ((s.reg .r7).toNat + k < 255 → ¬ IretSlotFits s (s.reg .r7).toNat k → interruptReturn s = .error (.tagFault ((s.reg .r7).toNat + k)))

theorem faultsAtSlot_reg {s : State} {k : Nat} (hk : k < 7) (hbefore : ∀ j, j < k → IretSlotFits s (s.reg .r7).toNat j) : FaultsAtSlot s k := by
  have hbytes : ∀ j, j < k → ∃ b, s.cellAt ((s.reg .r7).toNat + j) = .byte b := fun j hj =>
    (iretSlotFits_reg_iff (Nat.lt_trans hj hk)).mp (hbefore j hj)
  have herror := popRegs_error savedRegs.reverse (by decide) s k hk hbytes
  refine ⟨fun hmax => ?_, fun hlt hmisfit => ?_⟩
  · exact interruptReturn_of_regs_error ((herror (Nat.le_of_eq hmax)).1 hmax)
  · cases hcell : s.cellAt ((s.reg .r7).toNat + k) with
    | byte b => exact absurd ((iretSlotFits_reg_iff hk).mpr ⟨b, hcell⟩) hmisfit
    | raw n => exact interruptReturn_of_regs_error ((herror (Nat.le_of_lt hlt)).2 n hlt hcell)

/-- Seven fitting slots give the registers, and leave the stack pointer at the flag word. -/
theorem popRegs_of_fits {s : State} (hsp : (s.reg .r7).toNat + 7 ≤ 255) (hfits : ∀ j, j < 7 → IretSlotFits s (s.reg .r7).toNat j) :
    ∃ u, popRegs savedRegs.reverse s = .ok u ∧ (u.reg .r7).toNat = (s.reg .r7).toNat + 7 ∧ ∀ a, u.cellAt a = s.cellAt a := by
  have hbytes : ∀ j : Fin 7, ∃ b, s.cellAt ((s.reg .r7).toNat + j.val) = .byte b := fun j => (iretSlotFits_reg_iff j.isLt).mp (hfits j.val j.isLt)
  obtain ⟨b, hb⟩ := Classical.skolem.mp hbytes
  obtain ⟨u, hu, hsp', -, -, hcells, -⟩ := popRegs_ok savedRegs.reverse (by decide) (by decide) s (fun i => b (Fin.ofNat 7 i)) hsp fun i hi => by
    simpa [Nat.mod_eq_of_lt (show i < 7 from hi)] using hb (Fin.ofNat 7 i)
  exact ⟨u, hu, hsp', hcells⟩

theorem faultsAtSlot_flags {s : State} (hbefore : ∀ j, j < 7 → IretSlotFits s (s.reg .r7).toNat j) : FaultsAtSlot s 7 := by
  refine ⟨fun hmax => ?_, fun hlt hmisfit => ?_⟩
  · obtain ⟨u, hu, hsp, -⟩ := popRegs_of_fits (Nat.le_of_eq hmax) hbefore
    exact interruptReturn_of_flags_error hu (popRaw_of_max (hsp.trans hmax))
  · obtain ⟨u, hu, hsp, hcells⟩ := popRegs_of_fits (Nat.le_of_lt hlt) hbefore
    have hslot : u.cellAt (u.reg .r7).toNat = s.cellAt ((s.reg .r7).toNat + 7) := by rw [hcells, hsp]
    rw [← hsp] at hlt ⊢
    cases hcell : s.cellAt ((s.reg .r7).toNat + 7) with
    | byte b => exact interruptReturn_of_flags_error hu (popRaw_of_byte hlt (hslot.trans hcell))
    | raw w =>
      refine interruptReturn_of_flags_invalid hu (popRaw_of_raw hlt (hslot.trans hcell)) (flagsOfWord_none.mpr fun hvalid => hmisfit ?_)
      exact iretSlotFits_flags_iff.mpr ⟨w, hvalid, hcell⟩

/-- Eight fitting slots give the registers and the flags, and leave the stack pointer at the return address. -/
theorem popFlags_of_fits {s : State} (hsp : (s.reg .r7).toNat + 8 ≤ 255) (hfits : ∀ j, j < 8 → IretSlotFits s (s.reg .r7).toNat j) :
    ∃ u w f, popRegs savedRegs.reverse s = .ok u ∧ popRaw u = .ok (w, u.popped) ∧ flagsOfWord s.params.flagBits w = some f ∧
      (u.popped.reg .r7).toNat = (s.reg .r7).toNat + 8 ∧ ∀ a, u.popped.cellAt a = s.cellAt a := by
  obtain ⟨w, hvalid, hcell⟩ := iretSlotFits_flags_iff.mp (hfits 7 (by decide))
  obtain ⟨f, hf⟩ := exists_flagsOfWord_of_valid hvalid
  obtain ⟨u, hu, hsp', hcells⟩ := popRegs_of_fits (Nat.le_of_succ_le hsp) fun j hj => hfits j (Nat.lt_succ_of_lt hj)
  have hlt : (u.reg .r7).toNat < 255 := by omega
  refine ⟨u, w, f, hu, popRaw_of_raw hlt (by rw [hcells, hsp', hcell]), hf, ?_, hcells⟩
  rw [State.popped_sp (Byte.ne_max_of_toNat (Nat.ne_of_lt hlt)), hsp']

theorem faultsAtSlot_pc {s : State} (hbefore : ∀ j, j < 8 → IretSlotFits s (s.reg .r7).toNat j) : FaultsAtSlot s 8 := by
  refine ⟨fun hmax => ?_, fun hlt hmisfit => ?_⟩
  · obtain ⟨u, w, f, hu, hw, hf, hsp, -⟩ := popFlags_of_fits (Nat.le_of_eq hmax) hbefore
    exact interruptReturn_of_pc_error hu hw hf (popRaw_of_max (hsp.trans hmax))
  · obtain ⟨u, w, f, hu, hw, hf, hsp, hcells⟩ := popFlags_of_fits (Nat.le_of_lt hlt) hbefore
    have hslot : u.popped.cellAt (u.popped.reg .r7).toNat = s.cellAt ((s.reg .r7).toNat + 8) := by rw [hcells, hsp]
    rw [← hsp] at hlt ⊢
    cases hcell : s.cellAt ((s.reg .r7).toNat + 8) with
    | byte b => exact interruptReturn_of_pc_error hu hw hf (popRaw_of_byte hlt (hslot.trans hcell))
    | raw n => exact absurd (iretSlotFits_pc_iff.mpr ⟨n, hcell⟩) hmisfit

/-- The first slot that does not fit decides `IRET`'s fault. -/
theorem faultsAtSlot_of_fits_before {s : State} {k : Nat} (hk : k < 9) (hbefore : ∀ j, j < k → IretSlotFits s (s.reg .r7).toNat j) :
    FaultsAtSlot s k := by
  obtain hreg | rfl | rfl : k < 7 ∨ k = 7 ∨ k = 8 := by omega
  · exact faultsAtSlot_reg hreg hbefore
  · exact faultsAtSlot_flags hbefore
  · exact faultsAtSlot_pc hbefore

end Sys2Proof.Machine

namespace Sys2Proof.Proofs

open Sys2Proof.Machine

/-- Settles O14: the return address stands where the `CALL` left the stack pointer, and the pop undoes the decrement. -/
theorem callThenRetResumes : Obligations.CallThenRetResumes := by
  intro s t u a hcall hsp hcell
  obtain ⟨ra, -, hroom, rfl⟩ := execCall_next hcall
  rw [State.setPc_reg, State.pushed_reg, if_pos rfl] at hsp
  rw [State.setPc_cellAt, State.setPc_reg, State.pushed_sp _ hroom, State.pushed_cellAt_top _ hroom] at hcell
  have hpop : u.reg .r7 ≠ 255#8 := by
    have hlt := Byte.toNat_sub_one hroom
    have hle := Byte.toNat_le (s.reg .r7)
    rw [hsp]
    exact Byte.ne_max_of_toNat (by omega)
  refine ⟨u.popped.setPc (s.pc + 2), execRet_of_raw hpop hcell, rfl, ?_, u.popped_frame.setPc _⟩
  rw [State.setPc_reg, State.popped_reg, if_pos rfl, hsp, BitVec.sub_add_cancel]

/-- Settles O26: each instruction is the jump on its own condition. -/
theorem conditionalJumpsTestTheirFlags : Obligations.ConditionalJumpsTestTheirFlags :=
  ⟨jumpRule_of_jumpIf fun _ _ => rfl, jumpRule_of_jumpIf fun _ _ => rfl, jumpRule_of_jumpIf fun _ _ => rfl,
    jumpRule_of_jumpIf fun _ _ => rfl, jumpRule_of_jumpIf fun _ _ => rfl, jumpRule_of_jumpIf fun _ _ => rfl⟩

/-- Settles O27: the target is read in the pushed state, so `R7` gives the decremented stack pointer. -/
theorem callPushesReturnAddress : Obligations.CallPushesReturnAddress := by
  intro s a ra ha
  refine ⟨fun hsp => ?_, fun hsp => (execCall_eq s ha).trans (if_pos hsp)⟩
  refine ⟨_, (execCall_eq s ha).trans (if_neg hsp), ?_, ?_, ?_, (State.pushed_frame (.raw (s.pc + 2)) hsp).setPc _⟩
  · rw [State.setPc_cellAt, State.pushed_cellAt_top _ hsp]
  · rw [State.setPc_reg, State.pushed_sp _ hsp]
  · rw [State.setPc_pc, State.pushed_reg, apply_ite BitVec.toNat, Byte.toNat_sub_one hsp]

/-- Settles O28: `RET` is the pop, its bound before its tag, and the jump to the payload. -/
theorem retPopsReturnAddress : Obligations.RetPopsReturnAddress := by
  intro s
  refine ⟨fun n hsp hcell => ?_, fun hsp => (execRet_eq s).trans (if_pos hsp), fun b => execRet_of_byte⟩
  exact ⟨s.popped.setPc n, execRet_of_raw hsp hcell, rfl, State.popped_sp hsp, s.popped_frame.setPc n⟩

/-- Settles O29: the line's bit is set, and a number above 7 has none. -/
theorem intMakesLinePending : Obligations.IntMakesLinePending := by
  intro s a ra ha
  exact ⟨_, execInt_eq s ha, rfl, fun k => raiseLine_bit (s.reg ra).toNat s, s.setReg_advance_frame ..⟩

/-- Settles O30: the saved word gives exclusive flags back, and at the first slot that does not fit the pop of that slot faults. -/
theorem iretRestoresFrame : Obligations.IretRestoresFrame := by
  intro s
  refine ⟨fun hsp hbits b f w n hexclusive hbytes hw hflags hpc => ?_, fun k hk hbefore => ?_⟩
  · obtain rfl : w = flagWord s.params.flagBits f := by
      rw [hw, flagWord, Nat.mul_comm, Nat.mul_comm f.g.toNat, Nat.mul_comm f.e.toNat]
    refine ⟨fun hdefault => by rw [hdefault, flagWord_default], ?_⟩
    obtain ⟨t, ht, htpc, hfl, hie, hsp', hregs, hcells, -⟩ := interruptReturn_ok s (fun i => b (Fin.ofNat 7 i)) f _ n hsp
      (fun i hi => by simpa [Nat.mod_eq_of_lt hi] using hbytes (Fin.ofNat 7 i)) hflags (flagWord_exclusive hbits hexclusive) hpc
    obtain ⟨-, -, hacc, hprnOut, hstatus, hparams, hdraws, hpolls, -⟩ := interruptReturn_rest ht
    exact ⟨t, finish_eq_next.mpr ht, htpc, hfl, hie, hsp', hregs 0 (by decide), hregs 1 (by decide), hregs 2 (by decide), hregs 3 (by decide),
      hregs 4 (by decide), hregs 5 (by decide), hregs 6 (by decide), fun a _ => hcells a, ⟨hacc, hprnOut⟩, hstatus, hparams, hdraws, hpolls⟩
  · obtain ⟨hbound, htag⟩ := faultsAtSlot_of_fits_before hk hbefore
    exact ⟨fun hmax => finish_eq_fault.mpr (hbound hmax), fun hlt hmisfit => finish_eq_fault.mpr (htag hlt hmisfit)⟩

/-- Settles O25: `JMP` is the jump on no condition. -/
theorem jmpGoesToRegister : Obligations.JmpGoesToRegister :=
  jumpRule_of_jumpIf fun _ _ => rfl

end Sys2Proof.Proofs

/-! # Proofs: the core instructions -/

namespace Sys2Proof.Machine

/-! ## Frames of single updates and of their compositions -/

/-- The frames of two updates in a row. -/
theorem Frame.trans {rs rs' : List Reg} {addrs addrs' : List Nat} {s t u : State} (h : Frame rs addrs s t) (h' : Frame rs' addrs' t u) :
    Frame (rs ++ rs') (addrs ++ addrs') s u := by
  obtain ⟨hregs, hcells, hfl, ⟨hacc, hprnOut⟩, hie, hstatus, hparams, hdraws, hpolls⟩ := h
  obtain ⟨hregs', hcells', hfl', ⟨hacc', hprnOut'⟩, hie', hstatus', hparams', hdraws', hpolls'⟩ := h'
  refine ⟨fun r hr => ?_, fun a ha => ?_, hfl'.trans hfl, ⟨hacc'.trans hacc, hprnOut'.trans hprnOut⟩, hie'.trans hie, hstatus'.trans hstatus,
    hparams'.trans hparams, hdraws'.trans hdraws, hpolls'.trans hpolls⟩
  · obtain ⟨hr, hr'⟩ := not_or.mp (mt List.mem_append.mpr hr)
    rw [hregs' r hr', hregs r hr]
  · obtain ⟨ha, ha'⟩ := not_or.mp (mt List.mem_append.mpr ha)
    rw [hcells' a ha', hcells a ha]

/-- A frame does not speak of `pc`. -/
theorem Frame.advance {rs : List Reg} {addrs : List Nat} {s t : State} (h : Frame rs addrs s t) (len : Nat) : Frame rs addrs s (t.advance len) :=
  h.setPc _

theorem State.setReg_frame (s : State) (r : Reg) (v : Byte) : Frame [r] [] s (s.setReg r v) := s.setReg_advance_frame r v 0

theorem State.setCell_frame (s : State) (a : Nat) (c : Cell) : Frame [] [a] s (s.setCell a c) := by
  refine ⟨fun _ _ => rfl, fun b hb => ?_, rfl, ⟨rfl, rfl⟩, rfl, rfl, rfl, rfl, rfl⟩
  rw [State.setCell_cellAt, if_neg (List.ne_of_not_mem_cons hb)]

theorem State.advance_popped (s : State) (len : Nat) : (s.advance len).popped = s.popped.advance len := rfl

/-- A push and a pop leave only the cell written: the stack pointer comes back. -/
theorem State.pushed_popped_frame {s : State} (c : Cell) (h : s.reg .r7 ≠ 0#8) : Frame [] [(s.reg .r7).toNat - 1] s (s.pushed c).popped := by
  obtain ⟨hregs, hrest⟩ := (State.pushed_frame c h).trans (s.pushed c).popped_frame
  refine ⟨fun r _ => ?_, hrest⟩
  by_cases hr : r = .r7
  · rw [hr, State.popped_reg, if_pos rfl, State.pushed_reg, if_pos rfl, BitVec.sub_add_cancel]
  · exact hregs r (by simp [hr])

/-! ## `POP` by the cell at the stack pointer -/

theorem State.setReg_sp (s : State) (r : Reg) (v : Byte) : (s.setReg r v).reg .r7 = if r = .r7 then v else s.reg .r7 := by
  by_cases hr : r = .r7
  · rw [State.setReg_reg, if_pos hr, if_pos hr.symm]
  · rw [State.setReg_reg, if_neg hr, if_neg (Ne.symm hr)]

theorem execPop_of_byte {s : State} {a v : Byte} {ra : Reg} (ha : reg a = .ok ra) (hcell : s.cellAt (s.reg .r7).toNat = .byte v) :
    execPop a s = if (s.setReg ra v).reg .r7 = 255#8 then .fault (.stackFault 256) else .next ((s.setReg ra v).popped.advance 2) := by
  rw [execPop_eq s ha, hcell]

theorem execPop_of_raw {s : State} {a : Byte} {ra : Reg} {n : Nat} (ha : reg a = .ok ra) (hcell : s.cellAt (s.reg .r7).toNat = .raw n) :
    execPop a s = .fault (.tagFault (s.reg .r7).toNat) := by
  rw [execPop_eq s ha, hcell]

/-- Popping the value the register already has moves the stack pointer alone. -/
theorem execPop_of_own_byte {s : State} {a : Byte} {ra : Reg} (ha : reg a = .ok ra) (hcell : s.cellAt (s.reg .r7).toNat = .byte (s.reg ra))
    (hsp : s.reg .r7 ≠ 255#8) : execPop a s = .next (s.popped.advance 2) := by
  rw [execPop_of_byte ha hcell, State.setReg_reg_self, if_neg hsp]

/-! ## The decimal numeral of a byte -/

theorem digitChar_toNat : ∀ d < 10, (digitChar d).toNat = 48 + d := by decide

theorem decimal_of_lt_ten {v : Byte} (h : v.toNat < 10) : decimal v = [v.toNat].map digitChar := if_pos h

theorem decimal_of_lt_hundred {v : Byte} (h10 : 10 ≤ v.toNat) (h : v.toNat < 100) :
    decimal v = [v.toNat / 10, v.toNat % 10].map digitChar :=
  (if_neg (Nat.not_lt.mpr h10)).trans (if_pos h)

theorem decimal_of_hundred_le {v : Byte} (h : 100 ≤ v.toNat) :
    decimal v = [v.toNat / 100, v.toNat / 10 % 10, v.toNat % 10].map digitChar :=
  (if_neg (by omega)).trans (if_neg (Nat.not_lt.mpr h))

/-- The numeral's characters are the digits of the value, most significant first, with no leading 0 but for the one digit of 0
(spec/43_core.md R158). -/
theorem decimal_eq_map_digits (v : Byte) :
    ∃ ds : List Nat, decimal v = ds.map digitChar ∧ (∀ d ∈ ds, d < 10) ∧ ds.foldl (fun n d => 10 * n + d) 0 = v.toNat ∧ ds ≠ [] ∧
      (ds.head? = some 0 → ds = [0]) := by
  have hv := Byte.toNat_le v
  obtain h10 | ⟨h10, h100⟩ | h100 : v.toNat < 10 ∨ (10 ≤ v.toNat ∧ v.toNat < 100) ∨ 100 ≤ v.toNat := by omega
  · exact ⟨_, decimal_of_lt_ten h10, by simpa using h10, by simp, by simp, by simp⟩
  · have hlead : v.toNat / 10 ≠ 0 := by omega
    have hdigits : v.toNat / 10 < 10 ∧ v.toNat % 10 < 10 := by omega
    exact ⟨_, decimal_of_lt_hundred h10 h100, by simpa using hdigits, by simp [Nat.div_add_mod], by simp, fun h => absurd (Option.some.inj h) hlead⟩
  · have hlead : v.toNat / 100 ≠ 0 := by omega
    have hdigits : v.toNat / 100 < 10 ∧ v.toNat / 10 % 10 < 10 ∧ v.toNat % 10 < 10 := by omega
    have hvalue : 10 * (10 * (v.toNat / 100) + v.toNat / 10 % 10) + v.toNat % 10 = v.toNat := by omega
    exact ⟨_, decimal_of_hundred_le h100, by simpa using hdigits, by simpa using hvalue, by simp, fun h => absurd (Option.some.inj h) hlead⟩

/-- A numeral's value read off its characters is the value read off its digits. -/
theorem foldl_digitChar {ds : List Nat} (hds : ∀ d ∈ ds, d < 10) (n : Nat) :
    (ds.map digitChar).foldl (fun n c => 10 * n + (c.toNat - 48)) n = ds.foldl (fun n d => 10 * n + d) n := by
  induction ds generalizing n with
  | nil => rfl
  | cons d ds ih =>
    obtain ⟨hd, hrest⟩ := List.forall_mem_cons.mp hds
    rw [List.map_cons, List.foldl_cons, List.foldl_cons, digitChar_toNat d hd, Nat.add_sub_cancel_left, ih hrest]

theorem digitChar_eq_zero {d : Nat} (hd : d < 10) (h : digitChar d = '0') : d = 0 := by
  have hcode : 48 + d = 48 := (digitChar_toNat d hd).symm.trans (congrArg Char.toNat h)
  omega

end Sys2Proof.Machine

namespace Sys2Proof.Proofs

open Sys2Proof.Machine

/-- Settles O13: the byte pushed is what the operand holds after the decrement, so the pop's register write changes nothing, `R7` included. -/
theorem pushThenPopRestores : Obligations.PushThenPopRestores := by
  intro s a ra ha hsp
  refine ⟨_, _, (execPush_eq s ha).trans (if_neg hsp), execPop_of_own_byte ha ?_ ?_, rfl, ?_⟩
  · simp only [State.advance_cellAt, State.advance_reg, State.pushed_reg, State.pushed_cellAt, if_true]
  · have hlt := Byte.toNat_sub_one hsp
    have hle := Byte.toNat_le (s.reg .r7)
    rw [State.advance_reg, State.pushed_reg, if_pos rfl]
    exact Byte.ne_max_of_toNat (by omega)
  · rw [State.advance_popped]
    exact ((State.pushed_popped_frame _ hsp).advance _).advance _

/-- Settles O33: the tag of the addressed cell decides. -/
theorem ldLoadsAddressedByte : Obligations.LdLoadsAddressedByte := by
  intro s a b ra rb ha hb
  refine ⟨fun v hcell => ?_, fun n hcell => ?_⟩
  · have hexec : execLd a b s = .next ((s.setReg ra v).advance 3) := by rw [execLd_eq s ha hb, hcell]
    exact ⟨_, hexec, s.setReg_advance_reg_self .., rfl, s.setReg_advance_frame ..⟩
  · exact (execLd_eq s ha hb).trans (by rw [hcell])

/-- Settles O35: the push of the operand as it is after the decrement. -/
theorem pushStoresRegister : Obligations.PushStoresRegister := by
  intro s a ra ha
  refine ⟨fun hsp => ?_, fun hsp => (execPush_eq s ha).trans (if_pos hsp)⟩
  refine ⟨_, (execPush_eq s ha).trans (if_neg hsp), ?_, ?_, rfl, (State.pushed_frame _ hsp).advance _⟩
  · rw [State.advance_reg, State.pushed_sp _ hsp]
  · rw [State.advance_cellAt, State.pushed_cellAt_top _ hsp]

/-- Settles O36: the stack pointer that is incremented is the one the register write left. -/
theorem popLoadsRegister : Obligations.PopLoadsRegister := by
  intro s a ra ha
  refine ⟨fun v hcell sp hdef => ?_, fun n => execPop_of_raw ha⟩
  obtain rfl : (s.setReg ra v).reg .r7 = sp := (s.setReg_sp ra v).trans hdef.symm
  refine ⟨fun hsp => ?_, fun hsp => (execPop_of_byte ha hcell).trans (if_pos hsp)⟩
  refine ⟨_, (execPop_of_byte ha hcell).trans (if_neg hsp), State.popped_sp hsp, fun hra => ?_, rfl,
    ((s.setReg_frame ra v).trans (State.popped_frame _)).advance _⟩
  rw [State.advance_reg, State.popped_reg, if_neg hra, State.setReg_reg, if_pos rfl]

/-- Settles O37: the record is the numeral's digits written as characters. -/
theorem prnEmitsDecimalNumeral : Obligations.PrnEmitsDecimalNumeral := by
  intro s a ra ha
  obtain ⟨ds, hmap, hlt, hvalue, hne, hlead⟩ := decimal_eq_map_digits (s.reg ra)
  have hexec : execPrn a s = .next ((s.appendPrn (ds.map digitChar)).advance 2) := hmap ▸ withReg_ok ha _
  refine ⟨_, ds.map digitChar, hexec, rfl, rfl, (foldl_digitChar hlt 0).trans hvalue, ?_, mt List.map_eq_nil_iff.mp hne, ?_, rfl,
    fun _ _ => rfl, fun _ _ => rfl, rfl, rfl, rfl, rfl, rfl, rfl⟩
  · refine List.forall_mem_map.mpr fun d hd => ?_
    have hdigit := hlt d hd
    have hcode := digitChar_toNat d hdigit
    omega
  · intro hhead
    obtain ⟨d, hd, hzero⟩ := Option.map_eq_some_iff.mp (List.head?_map.symm.trans hhead)
    obtain rfl := digitChar_eq_zero (hlt d (List.mem_of_mem_head? hd)) hzero
    rw [hlead hd]
    rfl

/-- Settles O31: both instructions are the advance. -/
theorem nopAndHltOnlyAdvance : Obligations.NopAndHltOnlyAdvance := fun s =>
  ⟨s.advance 1, rfl, rfl, rfl, rfl, (Frame.refl s).advance 1⟩

/-- Settles O32: one register write. -/
theorem ldiLoadsImmediate : Obligations.LdiLoadsImmediate := fun s _ _ _ ha =>
  ⟨_, withReg_ok ha _, s.setReg_advance_reg_self .., rfl, s.setReg_advance_frame ..⟩

/-- Settles O34: one memory write, at an address that is always in range. -/
theorem stStoresToAddress : Obligations.StStoresToAddress := by
  intro s a b ra rb ha hb
  refine ⟨_, execSt_eq s ha hb, ?_, rfl, (s.setCell_frame ..).advance _⟩
  rw [State.advance_cellAt, State.setCell_cellAt, if_pos rfl]

/-- Settles O38: one code point at the end of the accumulator. -/
theorem praAppendsCharacter : Obligations.PraAppendsCharacter := fun _ _ _ ha =>
  ⟨_, withReg_ok ha _, rfl, rfl, rfl, fun _ _ => rfl, fun _ _ => rfl, rfl, rfl, rfl, rfl, rfl, rfl⟩

end Sys2Proof.Proofs

/-! # Proofs: the poll, the interrupt service and its return, and the faults of the instructions -/

namespace Sys2Proof.Machine

/-! ## What a poll records -/

theorem pollTimer_bit (tick : Bool) (s : State) {k : Nat} (hk : k < 8) :
    ((pollTimer tick s).reg .r6).getLsbD k = ((s.reg .r6).getLsbD k || (decide (k = 0) && tick)) := by
  cases tick with
  | false => simp [pollTimer]
  | true => rw [pollTimer, if_pos rfl, raiseLine_bit 0 s hk, Bool.and_true]

/-- A timer fire sets `IS` bit 0, a key bit 1 (spec/60_exceptions.md R183, R184). -/
theorem State.polled_bit (s : State) {k : Nat} (hk : k < 8) :
    (s.polled.reg .r6).getLsbD k =
      ((s.reg .r6).getLsbD k || (decide (k = 0) && s.draw.tick) || (decide (k = 1) && s.draw.key.isSome)) := by
  have htimer := pollTimer_bit s.draw.tick s.consumeDraw hk
  unfold State.polled
  cases s.draw.key with
  | none => simpa using htimer
  | some c =>
    simp only [raiseLine_bit 1 _ hk, State.setCell_reg, htimer]
    simp

/-- A key is stored at `KEY_ADDR` (spec/60_exceptions.md R184). -/
theorem State.polled_keyCell {s : State} {c : Byte} (h : s.draw.key = some c) : s.polled.cellAt s.params.keyAddr.toNat = .byte c := by
  simp [State.polled, h, raiseLine, pollTimer_params]

theorem State.polled_cells_of_no_key {s : State} (h : s.draw.key = none) : CellsExcept [] s s.polled := by
  obtain ⟨⟨-, hcells, -⟩, -⟩ := pollTimer_frame s.draw.tick s.consumeDraw
  rw [State.polled, h]
  exact hcells

theorem pollPhase_of_not_cancelled {s : State} (hie : s.ie = true) (hkey : s.draw.key ≠ some s.params.cancelKey) :
    pollPhase s = serviceActive s.polled := by
  rw [pollPhase_of_enabled hie, poll_eq, if_neg hkey]

/-- The sentinel ends the run after the timer was recorded and before any service (spec/60_exceptions.md R185, decision D26; log 18). -/
theorem step_of_cancelKey {s : State} (hs : s.status = .running) (hie : s.ie = true) (hkey : s.draw.key = some s.params.cancelKey) :
    step s = .next ((pollTimer s.draw.tick s.consumeDraw).setStatus .cancelled) := by
  have hpoll : pollPhase s = .ok ((pollTimer s.draw.tick s.consumeDraw).setStatus .cancelled) := by
    rw [pollPhase_of_enabled hie, poll_eq, if_pos hkey]
  simp [step, hs, hpoll]

theorem serviceActive_of_none_active {s : State} (h : ∀ n, n < 8 → ((s.reg .r5).getLsbD n && (s.reg .r6).getLsbD n) = false) :
    serviceActive s = .ok s := by
  have hnone : lowestLine (s.reg .r5 &&& s.reg .r6) = none :=
    lowestLine_none fun n hn => by rw [BitVec.getLsbD_and, h n hn]
  rw [serviceActive, hnone]

/-! ## The saved frame -/

/-- The flag word as R17 writes it, each flag times its bit. -/
theorem flagWord_eq_sum (bits : Config.FlagBits) (f : Flags) :
    flagWord bits f = f.l.toNat * 2 ^ bits.l.val + f.g.toNat * 2 ^ bits.g.val + f.e.toNat * 2 ^ bits.e.val := by
  rw [flagWord, Nat.mul_comm, Nat.mul_comm _ f.g.toNat, Nat.mul_comm _ f.e.toNat]

theorem clearLine_reg {n : Nat} {s : State} {r : Reg} (hr : r ≠ .r6) : (clearLine n s).reg r = s.reg r := by
  rw [clearLine, State.setReg_reg, if_neg hr]

/-- The lowest cell of the frame is `IS` without the serviced line's bit (spec/60_exceptions.md R187, decision D15; log 9). -/
theorem Framed.savedStatus {n : Nat} {s p : State} (hp : Framed n s p) :
    ∃ saved, p.cellAt ((s.reg .r7).toNat - 9) = .byte saved ∧
      ∀ k, k < 8 → saved.getLsbD k = ((s.reg .r6).getLsbD k && decide (k ≠ n)) :=
  ⟨(clearLine n s).reg .r6, hp.savedReg 6 (by decide), fun _ => clearLine_bit n s⟩

/-- The saved registers from the lowest cell up, as `IRET` pops them (spec/42_control_flow.md R141). -/
theorem Framed.savedReg_reverse {n : Nat} {s p : State} (hp : Framed n s p) (hsp : 9 ≤ (s.reg .r7).toNat) {i : Nat}
    (hi : i < savedRegs.reverse.length) :
    p.cellAt ((s.reg .r7).toNat - 9 + i) = .byte ((clearLine n s).reg savedRegs.reverse[i]) := by
  have hlen : savedRegs.length = 7 := rfl
  have hi' : i < 7 := hi
  have hat : (s.reg .r7).toNat - 9 + i = (s.reg .r7).toNat - 3 - (savedRegs.length - 1 - i) := by omega
  rw [hat, List.getElem_reverse]
  exact hp.savedReg _ _

theorem mem_savedRegs_reverse {r : Reg} (hr : r ≠ .r7) : r ∈ savedRegs.reverse := by
  cases r with
  | r7 => exact absurd rfl hr
  | r0 | r1 | r2 | r3 | r4 | r5 | r6 => decide

/-- `IRET` on the frame of a service, in any state that still has its cells, stack pointer and parameters: every register but `IS` comes back, `IS`
without the serviced line's bit (spec/60_exceptions.md R193). -/
theorem interruptReturn_of_framed {n : Nat} {s p u : State} (hp : Framed n s p) (hsp : 9 ≤ (s.reg .r7).toNat) (hfl : s.fl.exclusive)
    (hbits : s.params.flagBits.distinct) (hparams : u.params = s.params) (husp : (u.reg .r7).toNat = (s.reg .r7).toNat - 9)
    (hcells : ∀ k, k < 9 → u.cellAt ((s.reg .r7).toNat - 9 + k) = p.cellAt ((s.reg .r7).toNat - 9 + k)) :
    ∃ v, interruptReturn u = .ok v ∧ v.pc = s.pc ∧ v.fl = s.fl ∧ (∀ r, v.reg r = (clearLine n s).reg r) ∧ ∀ a, v.cellAt a = u.cellAt a := by
  have hregs : ∀ i, i < 7 → u.cellAt ((u.reg .r7).toNat + i) = .byte ((clearLine n s).reg (savedRegs.reverse.getD i .r0)) := fun i hi => by
    have hi' : i < savedRegs.reverse.length := hi
    rw [husp, hcells i (by omega), hp.savedReg_reverse hsp hi', List.getElem_eq_getD .r0]
  have hflags : u.cellAt ((u.reg .r7).toNat + 7) = .raw (flagWord s.params.flagBits s.fl) := by
    rw [husp, hcells 7 (by decide), ← hp.savedFlags]
    congr 1
    omega
  have hpc : u.cellAt ((u.reg .r7).toNat + 8) = .raw s.pc := by
    rw [husp, hcells 8 (by decide), ← hp.savedPc]
    congr 1
    omega
  have hbound : (u.reg .r7).toNat ≤ 246 := by
    have hmax := Byte.toNat_le (s.reg .r7)
    omega
  obtain ⟨v, hv, hvpc, hvfl, -, hvsp, hvregs, hvcells, -⟩ :=
    interruptReturn_ok u _ s.fl _ s.pc hbound hregs hflags (by rw [hparams, flagWord_exclusive hbits hfl]) hpc
  refine ⟨v, hv, hvpc, hvfl, fun r => ?_, hvcells⟩
  by_cases hr : r = .r7
  · subst hr
    rw [clearLine_reg (by decide)]
    exact BitVec.eq_of_toNat_eq (by omega)
  · obtain ⟨i, hi, rfl⟩ := List.getElem_of_mem (mem_savedRegs_reverse hr)
    rw [hvregs i hi, ← List.getElem_eq_getD]

/-! ## The faults of the shared operations -/

/-- A second half that only computes raises nothing. -/
theorem Except.eq_error_of_bind_ok {α β : Type} {x : Except Fault α} {g : α → β} {e : Fault} (h : (x >>= fun a => .ok (g a)) = .error e) :
    x = .error e := by
  cases x with
  | error e' => exact congrArg Except.error (Except.error.inj h)
  | ok a => cases h

theorem expectByte_error {a : Nat} {c : Cell} {f : Fault} (h : expectByte a c = .error f) : f = .tagFault a := by
  cases c with
  | byte b => cases h
  | raw n =>
    cases h
    rfl

theorem decrementSp_error {s : State} {f : Fault} (h : decrementSp s = .error f) : s.reg .r7 = 0#8 ∧ f = .stackFault (-1) := by
  unfold decrementSp at h
  split at h
  · next hsp =>
    cases h
    exact ⟨hsp, rfl⟩
  · cases h

theorem incrementSp_error {s : State} {f : Fault} (h : incrementSp s = .error f) : f = .stackFault 256 := by
  unfold incrementSp at h
  split at h <;> cases h
  rfl

/-- A push faults only at `SP = 0`: the address it writes is a register's value. -/
theorem push_error {c : Cell} {s : State} {f : Fault} (h : push c s = .error f) : s.reg .r7 = 0#8 ∧ f = .stackFault (-1) := by
  rw [push_eq] at h
  split at h
  · next hsp =>
    cases h
    exact ⟨hsp, rfl⟩
  · cases h

/-- The two faults of a pop: the stack pointer's bound, and the tag of the cell (spec/60_exceptions.md R172, R174). -/
inductive PopFault : Fault → Prop where
  | bound : PopFault (.stackFault 256)
  | tag (a : Nat) : PopFault (.tagFault a)

theorem popByte_fault {s : State} {f : Fault} (h : popByte s = .error f) : PopFault f := by
  rw [popByte_eq] at h
  repeat' split at h
  all_goals cases h
  · exact .bound
  · exact .tag _

theorem popRaw_fault {s : State} {f : Fault} (h : popRaw s = .error f) : PopFault f := by
  rw [popRaw_eq] at h
  repeat' split at h
  all_goals cases h
  · exact .bound
  · exact .tag _

theorem popRegs_fault {rs : List Reg} {s : State} {f : Fault} (h : popRegs rs s = .error f) : PopFault f := by
  induction rs generalizing s with
  | nil => cases h
  | cons r rs ih =>
    rcases Except.bind_eq_error.mp h with hpop | ⟨_, _, hrest⟩
    · exact popByte_fault hpop
    · exact ih hrest

/-- `IRET` faults where one of its pops does, or with the tag fault of an invalid flag word (decision D25, log 16). -/
theorem interruptReturn_fault {s : State} {f : Fault} (h : interruptReturn s = .error f) : PopFault f := by
  rcases Except.bind_eq_error.mp h with hregs | ⟨s1, _, h⟩
  · exact popRegs_fault hregs
  rcases Except.bind_eq_error.mp h with hflags | ⟨⟨w, s2⟩, _, h⟩
  · exact popRaw_fault hflags
  dsimp only at h
  split at h
  · cases h
    exact .tag _
  · exact popRaw_fault (Except.eq_error_of_bind_ok h)

/-! ## The faults of the instructions -/

/-- Every fault an instruction can raise (spec/60_exceptions.md R171 to R175): a register operand above 7, or what its own meaning raises. -/
inductive ExecFault (s : State) : Instr → Fault → Prop where
  | operand {i : Instr} {op : Byte} (hop : op ∈ i.registerOperands) (hgt : 7 < op.toNat) : ExecFault s i (.decodeError op.toNat)
  | mod (a b : Byte) : ExecFault s (.mod a b) (.arithmeticFault s.pc)
  | push (a : Byte) (hsp : s.reg .r7 = 0#8) : ExecFault s (.push a) (.stackFault (-1))
  | call (a : Byte) (hsp : s.reg .r7 = 0#8) : ExecFault s (.call a) (.stackFault (-1))
  | ld (a b : Byte) (addr : Nat) : ExecFault s (.ld a b) (.tagFault addr)
  | pop (a : Byte) {f : Fault} (hf : PopFault f) : ExecFault s (.pop a) f
  | ret {f : Fault} (hf : PopFault f) : ExecFault s .ret f
  | iret {f : Fault} (hf : PopFault f) : ExecFault s .iret f

section
variable {s : State} {i : Instr} {f : Fault} {a b : Byte}

/-- One register operand: its check faults, or the effect does. -/
theorem ExecFault.of_withReg {effect : Reg → Except Fault State} (hi : i.registerOperands = [a]) (h : withReg a effect = .fault f)
    (heffect : ∀ ra, effect ra = .error f → ExecFault s i f) : ExecFault s i f := by
  rcases withReg_fault.mp h with ⟨hgt, rfl⟩ | ⟨ra, -, he⟩
  · exact .operand (by simp [hi]) hgt
  · exact heffect ra he

/-- Two register operands: a check faults, or the effect does. -/
theorem ExecFault.of_withRegs {effect : Reg → Reg → Except Fault State} (hi : i.registerOperands = [a, b]) (h : withRegs a b effect = .fault f)
    (heffect : ∀ ra rb, effect ra rb = .error f → ExecFault s i f) : ExecFault s i f := by
  rcases withRegs_fault h with ⟨hgt, rfl⟩ | ⟨hgt, rfl⟩ | ⟨ra, rb, -, -, he⟩
  · exact .operand (by simp [hi]) hgt
  · exact .operand (by simp [hi]) hgt
  · exact heffect ra rb he

theorem execMod_fault (h : execMod a b s = .fault f) : ExecFault s (.mod a b) f := by
  refine .of_withRegs rfl h fun ra rb he => ?_
  split at he
  · cases he
    exact .mod a b
  · cases he

theorem execCall_fault (h : execCall a s = .fault f) : ExecFault s (.call a) f := by
  refine .of_withReg rfl h fun ra he => ?_
  obtain ⟨hsp, rfl⟩ := push_error (Except.eq_error_of_bind_ok he)
  exact .call a hsp

theorem execRet_fault (h : execRet s = .fault f) : ExecFault s .ret f :=
  .ret (popRaw_fault (Except.eq_error_of_bind_ok (finish_eq_fault.mp h)))

theorem execLd_fault (h : execLd a b s = .fault f) : ExecFault s (.ld a b) f := by
  refine .of_withRegs rfl h fun ra rb he => ?_
  have hread := Except.eq_error_of_bind_ok he
  rw [readByte_byte] at hread
  obtain rfl := expectByte_error hread
  exact .ld a b _

theorem execSt_fault (h : execSt a b s = .fault f) : ExecFault s (.st a b) f := by
  refine .of_withRegs rfl h fun ra rb he => ?_
  rw [memWrite_byte] at he
  cases he

theorem execPush_fault (h : execPush a s = .fault f) : ExecFault s (.push a) f := by
  refine .of_withReg rfl h fun ra he => ?_
  rcases Except.bind_eq_error.mp he with hdecrement | ⟨s1, _, hwrite⟩
  · obtain ⟨hsp, rfl⟩ := decrementSp_error hdecrement
    exact .push a hsp
  · rw [memWrite_byte] at hwrite
    cases hwrite

theorem execPop_fault (h : execPop a s = .fault f) : ExecFault s (.pop a) f := by
  refine .of_withReg rfl h fun ra he => ?_
  rcases Except.bind_eq_error.mp he with hread | ⟨v, _, he⟩
  · rw [readByte_byte] at hread
    obtain rfl := expectByte_error hread
    exact .pop a (.tag _)
  · obtain rfl := incrementSp_error (Except.eq_error_of_bind_ok he)
    exact .pop a .bound

theorem exec_fault (h : exec i s = .fault f) : ExecFault s i f := by
  cases i with
  | add | sub | mul | div | cmp | and | or | xor | shl | shr => exact .of_withRegs rfl h nofun
  | inc | dec | not | jmp | jeq | jne | jgt | jlt | jle | jge | int | ldi | prn | pra => exact .of_withReg rfl h nofun
  | nop | hlt => cases h
  | mod => exact execMod_fault h
  | call => exact execCall_fault h
  | ret => exact execRet_fault h
  | iret => exact .iret (interruptReturn_fault (finish_eq_fault.mp h))
  | ld => exact execLd_fault h
  | st => exact execSt_fault h
  | push => exact execPush_fault h
  | pop => exact execPop_fault h

end

theorem not_wellFormed_of_mem {i : Instr} {op : Byte} (hop : op ∈ i.registerOperands) (hgt : 7 < op.toNat) : i.wellFormed = false :=
  List.all_eq_false.mpr ⟨op, hop, by simp [registerByte, hgt]⟩

/-! ## Instructions under other draws -/

/-- The same state with other draws of the environment (log 3). -/
def State.withDraws (d : List Config.Draw) (n : Nat) (s : State) : State := { s with draws := d, polls := n }

section
variable (d : List Config.Draw) (n : Nat) (s : State)

@[simp] theorem State.withDraws_reg (r : Reg) : (s.withDraws d n).reg r = s.reg r := rfl

@[simp] theorem State.withDraws_pc : (s.withDraws d n).pc = s.pc := rfl

@[simp] theorem State.withDraws_params : (s.withDraws d n).params = s.params := rfl

@[simp] theorem memRead_withDraws (a : Nat) : memRead a (s.withDraws d n) = memRead a s := rfl

theorem readByte_withDraws (a : Nat) : readByte a (s.withDraws d n) = (readByte a s).map id := by
  cases h : readByte a s <;> exact h

theorem incrementSp_withDraws : incrementSp (s.withDraws d n) = (incrementSp s).map (State.withDraws d n) := by
  rw [incrementSp, incrementSp, State.withDraws_reg]
  split <;> rfl

theorem pop_withDraws : pop (s.withDraws d n) = (pop s).map (Prod.map id (State.withDraws d n)) := by
  rw [pop_eq, pop_eq, State.withDraws_reg]
  split <;> rfl

theorem popByte_withDraws : popByte (s.withDraws d n) = (popByte s).map (Prod.map id (State.withDraws d n)) := by
  refine Except.bind_eq_map_bind (pop_withDraws d n s) fun p => ?_
  obtain ⟨_ | _, _⟩ := p <;> rfl

theorem popRaw_withDraws : popRaw (s.withDraws d n) = (popRaw s).map (Prod.map id (State.withDraws d n)) := by
  refine Except.bind_eq_map_bind (pop_withDraws d n s) fun p => ?_
  obtain ⟨_ | _, _⟩ := p <;> rfl

theorem popRegs_withDraws (rs : List Reg) : popRegs rs (s.withDraws d n) = (popRegs rs s).map (State.withDraws d n) := by
  induction rs generalizing s with
  | nil => rfl
  | cons r rs ih => exact Except.bind_eq_map_bind (popByte_withDraws d n s) fun p => ih (p.2.setReg r p.1)

theorem interruptReturn_withDraws : interruptReturn (s.withDraws d n) = (interruptReturn s).map (State.withDraws d n) := by
  refine Except.bind_eq_map_bind (popRegs_withDraws d n s _) fun s1 => Except.bind_eq_map_bind (popRaw_withDraws d n s1) fun p => ?_
  simp only [Prod.map, id, State.withDraws_params]
  cases flagsOfWord s.params.flagBits p.1 with
  | none => rfl
  | some f => exact Except.bind_eq_map_bind (popRaw_withDraws d n p.2) fun _ => rfl

theorem jumpIf_withDraws (taken : Bool) (a : Byte) :
    jumpIf taken a (s.withDraws d n) = mapNext (State.withDraws d n) (jumpIf taken a s) :=
  withReg_map fun _ => by cases taken <;> rfl

/-- No instruction reads the draws, and every instruction carries a change of them along. -/
theorem exec_withDraws (i : Instr) : exec i (s.withDraws d n) = mapNext (State.withDraws d n) (exec i s) := by
  cases i with
  | add | sub | mul | div | cmp | and | or | xor | shl | shr => exact withRegs_map fun _ _ => rfl
  | inc | dec | not | ldi | prn | pra => exact withReg_map fun _ => rfl
  | jmp | jeq | jne | jgt | jge | jlt | jle => exact jumpIf_withDraws d n s _ _
  | nop | hlt => rfl
  | mod =>
    refine withRegs_map fun ra rb => ?_
    rw [State.withDraws_reg]
    split <;> rfl
  | call =>
    refine withReg_map fun ra => ?_
    rw [push_eq, push_eq, State.withDraws_reg]
    split <;> rfl
  | ret =>
    refine (congrArg finish ?_).trans (finish_map _ _)
    exact Except.bind_eq_map_bind (popRaw_withDraws d n s) fun _ => rfl
  | int =>
    refine withReg_map fun ra => ?_
    rw [State.withDraws_reg]
    dsimp only
    split <;> rfl
  | iret => exact (congrArg finish (interruptReturn_withDraws d n s)).trans (finish_map _ _)
  | ld => exact withRegs_map fun _ _ => Except.bind_eq_map_bind (readByte_withDraws d n s _) fun _ => rfl
  | st =>
    refine withRegs_map fun ra rb => ?_
    rw [memWrite_byte, memWrite_byte]
    rfl
  | push =>
    refine withReg_map fun ra => ?_
    rw [decrementSp, decrementSp, State.withDraws_reg]
    split
    · rfl
    · simp only [bind, Except.bind, memWrite_byte]
      rfl
  | pop =>
    exact withReg_map fun ra => Except.bind_eq_map_bind (readByte_withDraws d n s _) fun v =>
      Except.bind_eq_map_bind (incrementSp_withDraws d n (s.setReg ra v)) fun _ => rfl

theorem fetchOperands_withDraws (count a : Nat) : fetchOperands count a (s.withDraws d n) = fetchOperands count a s := by
  induction count generalizing a with
  | zero => rfl
  | succ count ih => simp only [fetchOperands, memRead_withDraws, ih]

theorem fetch_withDraws : fetch (s.withDraws d n) = fetch s := by
  simp only [fetch, State.withDraws_pc, State.withDraws_params, memRead_withDraws, fetchOperands_withDraws]

theorem fetchAndExecute_withDraws : fetchAndExecute (s.withDraws d n) = mapNext (State.withDraws d n) (fetchAndExecute s) := by
  unfold fetchAndExecute
  rw [fetch_withDraws]
  split
  · rfl
  · rfl
  · exact exec_withDraws d n s _

end

theorem step_of_faultStatus {s : State} {f : Fault} (h : s.status = .fault f) : step s = .fault f := by
  rw [step, h]

theorem step_of_disabled {s : State} (hs : s.status = .running) (hie : s.ie = false) : step s = fetchAndExecute s :=
  step_of_poll hs (pollPhase_of_disabled hie) hs

/-- While `IE` is false the step carries a change of the draws along (spec/60_exceptions.md R182). -/
theorem step_withDraws_of_disabled (d : List Config.Draw) (n : Nat) {s : State} (hie : s.ie = false) :
    step (s.withDraws d n) = mapNext (State.withDraws d n) (step s) := by
  cases hs : s.status with
  | running => rw [step_of_disabled hs hie, step_of_disabled (s := s.withDraws d n) hs hie, fetchAndExecute_withDraws]
  | halted =>
    rw [step_self_of_halted hs, step_self_of_halted (s := s.withDraws d n) hs]
    rfl
  | cancelled =>
    rw [step_self_of_cancelled hs, step_self_of_cancelled (s := s.withDraws d n) hs]
    rfl
  | fault f =>
    rw [step_of_faultStatus hs, step_of_faultStatus (s := s.withDraws d n) hs]
    rfl

/-- While `IE` is false a step leaves the draws unsampled (spec/60_exceptions.md R182). -/
theorem step_draws_of_disabled {s t : State} (hie : s.ie = false) (h : step s = .next t) : t.draws = s.draws ∧ t.polls = s.polls := by
  rcases step_cases h with ⟨-, rfl⟩ | ⟨-, s1, hpoll, hstep⟩
  · exact ⟨rfl, rfl⟩
  · obtain rfl := Except.ok.inj ((pollPhase_of_disabled hie).symm.trans hpoll)
    rcases hstep with ⟨-, rfl⟩ | ⟨-, -, rfl⟩ | ⟨-, i, -, hi⟩
    · exact ⟨rfl, rfl⟩
    · exact ⟨rfl, rfl⟩
    · obtain ⟨-, -, hdraws⟩ := exec_rest hi
      exact hdraws

end Sys2Proof.Machine

namespace Sys2Proof.Proofs

open Sys2Proof.Machine

/-- Settles O40: the poll answers the cancelled state, and there the step ends. -/
theorem cancelKeyEndsRun : Obligations.CancelKeyEndsRun := by
  intro s hs hie hkey
  obtain ⟨⟨hregs, hcells, hfl, hout, hie', -⟩, hpc⟩ := pollTimer_frame s.draw.tick s.consumeDraw
  exact ⟨_, step_of_cancelKey hs hie hkey, rfl, hpc, hregs, hcells, hfl, hout, hie'.trans hie⟩

/-- Settles O41: the state serviced from is the polled state. -/
theorem pollRecordsTimerAndKey : Obligations.PollRecordsTimerAndKey := by
  intro s hie hkey
  obtain ⟨⟨hregs, hcells, hfl, hout, hie', hstatus, hparams, hdraws, hpolls⟩, hpc⟩ := s.polled_frame
  exact ⟨s.polled, pollPhase_of_not_cancelled hie hkey, fun k => s.polled_bit, fun c hc => ⟨State.polled_keyCell hc, hcells⟩,
    State.polled_cells_of_no_key, hregs, hpc, hfl, hout, hie'.trans hie, hstatus, hparams, hdraws, hpolls⟩

/-- Settles O42: the least active line is found, its service saves `IS` without that line, and both sources record before the lines are computed. -/
theorem lowestActiveLineIsServiced : Obligations.LowestActiveLineIsServiced := by
  intro s
  refine ⟨fun n hn hmask hpending hlowest => ⟨serviceActive_of_lowest hn hmask hpending hlowest, fun t ht => ?_⟩, serviceActive_of_none_active,
    fun c hie htick hkey hc => ?_⟩
  · obtain ⟨hie, -⟩ := service_rest hn ht
    obtain ⟨-, p, b, hp, -, rfl⟩ := service_ok hn ht
    exact ⟨hie, hp.savedStatus⟩
  · obtain ⟨⟨hregs, -⟩, -⟩ := s.polled_frame
    have hnot : s.draw.key ≠ some s.params.cancelKey := fun h => hc (Option.some.inj (hkey.symm.trans h))
    refine ⟨s.polled, pollPhase_of_not_cancelled hie hnot, ?_, ?_, hregs .r5 (by decide)⟩
    · rw [s.polled_bit (by decide), htick]
      simp
    · rw [s.polled_bit (by decide), hkey]
      simp

/-- Settles O44: `p` is the state in which the frame stands and the vector slot is read. -/
theorem serviceSavesFrame : Obligations.ServiceSavesFrame := by
  intro s n hn
  obtain ⟨hfew, hroom⟩ := service_spec n hn s
  refine ⟨hfew, fun hsp => ?_⟩
  obtain ⟨p, hp, hservice⟩ := hroom hsp
  obtain ⟨hfl, -, hie, hacc, hprnOut, hstatus, hparams, hdraws, hpolls⟩ := hp.rest.fields
  refine ⟨p, hp.savedPc, ⟨_, hp.savedFlags, flagWord_eq_sum _ _, fun hdefault => by rw [hdefault, flagWord_default]⟩,
    hp.savedReg 0 (by decide), hp.savedReg 1 (by decide), hp.savedReg 2 (by decide), hp.savedReg 3 (by decide), hp.savedReg 4 (by decide),
    hp.savedReg 5 (by decide), hp.savedStatus, hp.cells, hp.zeroed, hp.sp, hie, hfl, ⟨hacc, hprnOut⟩, hstatus, hparams, hdraws, hpolls,
    fun h hcell => ?_, fun v hcell => ?_⟩
  · rw [hservice, hcell]
    rfl
  · rw [hservice, hcell]
    rfl

/-- Settles O45: the service left the frame of `IRET`, which gives back every register but `IS`, and `IS` without the line's bit. -/
theorem iretUndoesService : Obligations.IretUndoesService := by
  intro s t u n hn hfl hbits hservice hparams hsp hcells
  obtain ⟨hroom, p, b, hp, -, rfl⟩ := service_ok hn hservice
  obtain ⟨-, -, -, -, -, -, hpparams, -⟩ := hp.rest.fields
  simp only [State.setPc_reg, State.setPc_params, State.setPc_cellAt, hp.sp] at hparams hsp hcells
  obtain ⟨v, hv, hpc, hvfl, hregs, hvcells⟩ := interruptReturn_of_framed hp hroom hfl hbits (hparams.trans hpparams)
    ((congrArg BitVec.toNat hsp).trans hp.sp) hcells
  obtain ⟨-, hie, hacc, hprnOut, -⟩ := interruptReturn_rest hv
  refine ⟨v, finish_eq_next.mpr hv, hpc, hvfl, hie, fun r hr => (hregs r).trans (clearLine_reg hr), fun k hk => ?_, fun a _ => hvcells a,
    hacc, hprnOut⟩
  rw [hregs, clearLine_bit n s hk]

/-- Settles O51: each fault an instruction can raise names the instructions that raise it. -/
theorem faultsComeFromTheirInstructions : Obligations.FaultsComeFromTheirInstructions := by
  intro i s f h
  cases exec_fault h with
  | operand hop hgt => exact ⟨not_wellFormed_of_mem hop hgt, _, hop, hgt, rfl⟩
  | mod a b => exact ⟨rfl, a, b, rfl⟩
  | push a hsp => exact .inl ⟨rfl, hsp, .inl ⟨a, rfl⟩⟩
  | call a hsp => exact .inl ⟨rfl, hsp, .inr ⟨a, rfl⟩⟩
  | ld a b => exact .inl ⟨a, b, rfl⟩
  | pop a hf =>
    cases hf with
    | bound => exact .inr ⟨rfl, .inl ⟨a, rfl⟩⟩
    | tag => exact .inr (.inl ⟨a, rfl⟩)
  | ret hf =>
    cases hf with
    | bound => exact .inr ⟨rfl, .inr (.inl rfl)⟩
    | tag => exact .inr (.inr (.inl rfl))
  | iret hf =>
    cases hf with
    | bound => exact .inr ⟨rfl, .inr (.inr rfl)⟩
    | tag => exact .inr (.inr (.inr rfl))

/-- Settles O39: with no poll the step is the fetch and the instruction, and neither reads or writes the draws. -/
theorem noPollWhileDisabled : Obligations.NoPollWhileDisabled := fun _ d n hie =>
  ⟨pollPhase_of_disabled hie, step_withDraws_of_disabled d n hie, fun _ => step_draws_of_disabled hie⟩

end Sys2Proof.Proofs
